-- ==== Sys2Proof/Word.lean ====
section
/-! DEFINITION. The word types of the block (00_scope.md R6, R7): every value is unsigned. -/

namespace Sys2Proof

/-- A `u64`: a state, message, counter or work-vector word, and every numeric register (R6). -/
abbrev Word := BitVec 64

/-- A `u32`: the `rounds` field, `ROUNDS` and `RC` (R6). -/
abbrev Word32 := BitVec 32

/-- A `u8`: one byte of a byte space (R7). -/
abbrev Byte := BitVec 8

end Sys2Proof
end

