-- ==== Sys2Proof/Config.lean ====
section
/-! DEFINITION. The parameters of this hardware (00_scope.md R6): the fixed ones as constants, the OPEN one,
`BUS_BINDING`, as a structure that the definitions needing it take as an argument (log 9), and the launch premise
that the surrounding engine decides (log 16). -/

namespace Sys2Proof.Config

/-- `ROUND_GAS_UNIT` (R6, R102). -/
def roundGasUnit : Word := 1

/-- The one legal input length in bytes (R6, R50). -/
def frameLength : Nat := 213

/-- The output length in bytes (R6, R55). -/
def outputLength : Nat := 64

/-- The order in which a numeric register's eight bytes stand on a bus, left OPEN by R34 (92 D12). -/
inductive ByteOrder where
  | little
  | big
deriving DecidableEq, Repr

/-- What a byte lane of a transfer reaches: one of the eight bytes of a register, numbered in the order they stand on the
bus, or a byte of one of the two host-visible byte spaces (R11, R30). -/
inductive LaneTarget where
  | registerByte (n : Nat) (position : Fin 8)
  | inByte (offset : Nat)
  | outByte (offset : Nat)
deriving DecidableEq, Repr

/-- What a register write takes for a byte that no lane has carried: it waits for it, or takes zero, or takes the byte the
register holds. -/
inductive MissingByte where
  | waits
  | zero
  | held
deriving DecidableEq, Repr

/-- One bus cycle as its lines show it: the address, the direction, one byte for each lane of the transfer (on a read only
their number counts), and the handshake and reset lines. A transfer that takes several phases on the wires is one cycle here,
its control lines listed phase after phase (DESIGN CHOICE: log 9). -/
structure BusCycle where
  address : Nat
  isWrite : Bool
  lanes : List Byte
  control : List Bool
deriving DecidableEq, Repr

/-- `BUS_BINDING` (R6, 92 D2 and D12, 93 U6), every part of it an argument (log 9). Nothing in the block reads it, and no
field of the machine's state holds one. -/
structure BusBinding where
  /-- The transfer widths the bus has, in bytes (20_memory.md R37). -/
  widths : List Nat
  /-- Whether a transfer of `width` bytes may stand at `address` (R36). -/
  aligned : (address width : Nat) → Bool
  /-- Addresses and byte lanes: what lane `i` of a cycle reaches (R11, R30). It may depend on the whole cycle, its direction
  and control lines (byte enables) included, and on nothing outside it (DESIGN CHOICE: log 9). -/
  lane : (c : BusCycle) → (i : Nat) → Option LaneTarget
  /-- The byte order of the numeric registers (R34). -/
  numericOrder : ByteOrder
  /-- What a write of register `n` narrower than the register takes for the bytes it does not carry (R37). -/
  missing : (n : Nat) → MissingByte
  /-- The handshake: whether the transfer of a cycle takes place, decided from the lines of that cycle alone (DESIGN CHOICE:
  log 9). -/
  accepts : BusCycle → Bool
  /-- How reset is asserted (70_reset_and_hazards.md R140). -/
  assertsReset : BusCycle → Bool
  /-- Whether a read is single-copy atomic against the block's steps (R38). It speaks of one cycle: several read cycles are
  never atomic together, since the bus side keeps no value it has read (DESIGN CHOICE: log 9). -/
  readsAtomically : BusCycle → Bool

/-- `activationContext` (60_exceptions.md R130, 93 U9): whether the primitive is reachable is decided outside the block,
so it is a free value here. -/
opaque reachable : Bool

end Sys2Proof.Config
end

