-- ==== Sys2Proof/Syntax.lean ====
section
/-! DEFINITION. The instructions of the block: one constructor per row of `spec/opcode_table.json`
(30_encoding.md R63). -/

namespace Sys2Proof

/-- `blake2f`: the one instruction the input decoder reads, format F213 (R50): its operands are the fields of the frame,
`f` being the byte at offset 212 (R53). `start`: the host command START, format CMD (R56): `ignored` is bits 63..1 of the
command word, which have no effect (log 20). -/
inductive Instr where
  | blake2f (rounds : Word32) (h : Vector Word 8) (m : Vector Word 16) (t : Vector Word 2) (f : Byte)
  | start (ignored : BitVec 63)
deriving DecidableEq, Repr

end Sys2Proof
end

