-- ==== Sys2Proof/WellFormed.lean ====
section
/-! DEFINITION. When an instruction term stands for an encoding the spec calls legal. -/

namespace Sys2Proof

/-- The final-flag byte is 0x00 or 0x01 (30_encoding.md R53, R54). -/
def legalFlag (f : Byte) : Bool := f &&& 0xFE#8 == 0x00#8

/-- Every value of `rounds`, `h`, `m`, `t` is legal (R57, 40_decoder.md R69) and so is every value of a command word's
bits 63..1 (R56): the flag byte is the only operand with illegal values. -/
def Instr.wellFormed : Instr → Bool
  | .blake2f _ _ _ _ f => legalFlag f
  | .start _ => true

end Sys2Proof
end

