-- ==== Sys2Proof/Decode.lean ====
section
/-! DEFINITION. The input decoder (40_decoder.md R65 to R74), the command decoder (30_encoding.md R56), the encoder
(R60), and the host's numbering of the opcode table (log 8). -/

namespace Sys2Proof

/-! ## Byte groups (00_scope.md R8) -/

/-- `BE32`: four bytes from offset `o`, most significant first (R8, R32). -/
def be32 (byte : Nat → Byte) (o : Nat) : Word32 :=
  BitVec.ofNat 32 ((byte o).toNat * 2 ^ 24 + (byte (o + 1)).toNat * 2 ^ 16 + (byte (o + 2)).toNat * 2 ^ 8
    + (byte (o + 3)).toNat)

/-- `LE64`: eight bytes from offset `o`, least significant first (R8, R33). -/
def le64 (byte : Nat → Byte) (o : Nat) : Word :=
  BitVec.ofNat 64 ((byte o).toNat + (byte (o + 1)).toNat * 2 ^ 8 + (byte (o + 2)).toNat * 2 ^ 16
    + (byte (o + 3)).toNat * 2 ^ 24 + (byte (o + 4)).toNat * 2 ^ 32 + (byte (o + 5)).toNat * 2 ^ 40
    + (byte (o + 6)).toNat * 2 ^ 48 + (byte (o + 7)).toNat * 2 ^ 56)

/-- `n` little-endian words, the first at offset `o` (R36, R50). -/
def wordsAt (byte : Nat → Byte) (o n : Nat) : Vector Word n :=
  Vector.ofFn fun i => le64 byte (o + 8 * i.val)

/-- Byte `k` of a word in little-endian order: bits `8k+7 .. 8k` (R8 `LE64bytes`). -/
def wordByte (w : Word) (k : Nat) : Byte := BitVec.ofNat 8 (w.toNat / 2 ^ (8 * k))

/-- `LE64bytes` (R8). -/
def le64Bytes (w : Word) : List Byte :=
  [wordByte w 0, wordByte w 1, wordByte w 2, wordByte w 3, wordByte w 4, wordByte w 5, wordByte w 6, wordByte w 7]

/-- `BE32bytes` (R60). -/
def be32Bytes (x : Word32) : List Byte :=
  [BitVec.ofNat 8 (x.toNat / 2 ^ 24), BitVec.ofNat 8 (x.toNat / 2 ^ 16), BitVec.ofNat 8 (x.toNat / 2 ^ 8),
    BitVec.ofNat 8 x.toNat]

/-! ## Decoding -/

/-- What a decoder is given: a frame as its length and bytes (R58), or a command word (R56). -/
inductive Encoded where
  | frame (len : Word) (bytes : List Byte)
  | command (w : Word)
deriving DecidableEq, Repr

/-- Why nothing decodes. `lengthNot213` and `flagNotBool` are the two causes of OUT_OF_RANGE (40_decoder.md R66, R67).
`noByte` names a byte that a legal-length frame needs and that has no value (70_reset_and_hazards.md R141). `notStart` is
a command word with bit 0 clear, which does nothing (R56). -/
inductive Reject where
  | lengthNot213
  | flagNotBool
  | noByte (offset : Nat)
  | notStart
deriving DecidableEq, Repr

/-- The fields of a legal frame (R50 to R53, 40_decoder.md R68). -/
def frameFields (byte : Nat → Byte) (f : Byte) : Instr :=
  .blake2f (be32 byte 0) (wordsAt byte 4 8) (wordsAt byte 68 16) (wordsAt byte 196 2) f

/-- The lowest offset below `n` whose byte has no value. -/
def firstMissing (byte? : Nat → Option Byte) (n : Nat) : Option Nat :=
  (List.range n).find? fun k => (byte? k).isNone

/-- `decode` (40_decoder.md R65) over bytes that may have no value: the length is checked before any byte is read (R66,
R73), then the flag byte (R67), then the other 212 bytes are read (R68; DESIGN CHOICE for their order: log 14). -/
def decodeFrame (len : Word) (byte? : Nat → Option Byte) : Except Reject Instr :=
  if len ≠ 213#64 then .error .lengthNot213
  else match byte? 212 with
    | none => .error (.noByte 212)
    | some f =>
      if legalFlag f then
        match firstMissing byte? 212 with
        | some k => .error (.noByte k)
        | none => .ok (frameFields (fun k => (byte? k).getD 0#8) f)
      else .error .flagNotBool

/-- The command word: START exactly when bit 0 is 1 (R56, R63). -/
def decodeCommand (w : Word) : Except Reject Instr :=
  if w.getLsbD 0 then .ok (.start (w.extractLsb' 1 63)) else .error .notStart

/-- The whole opcode map: BLAKE2F from a frame, START from a command word, nothing else (R63). -/
def decode : Encoded → Except Reject Instr
  | .frame len bytes => decodeFrame len fun k => bytes[k]?
  | .command w => decodeCommand w

/-! ## Encoding -/

/-- The 213 bytes of a frame, in the order of the structured syntax (R60). -/
def frameBytes (rounds : Word32) (h : Vector Word 8) (m : Vector Word 16) (t : Vector Word 2) (f : Byte) : List Byte :=
  be32Bytes rounds ++ h.toList.flatMap le64Bytes ++ m.toList.flatMap le64Bytes ++ t.toList.flatMap le64Bytes ++ [f]

/-- The encoding of an instruction: a frame of length 213 (R50, R60) or a command word with bit 0 set (R56). -/
def encode : Instr → Encoded
  | .blake2f rounds h m t f => .frame 213#64 (frameBytes rounds h m t f)
  | .start ignored => .command (ignored ++ 1#1)

/-! ## The opcode table's numbering (log 8) -/

/-- Byte `k` of the number `w`. -/
def natByte (w k : Nat) : Byte := BitVec.ofNat 8 (w >>> (8 * k))

/-- What a word of the opcode table stands for (DESIGN CHOICE: log 8). With a whole frame's bits, the frame. With 64 bits, a command
word. With fewer bits than a frame, an odd word is the START row's match (bit 0 of CMD) and an even word is the BLAKE2F
row's match byte, which applies to frame byte 212, the rest of the frame being zero. -/
def tableEncoded (nbits w : Nat) : Encoded :=
  if 8 * Config.frameLength ≤ nbits then .frame 213#64 ((List.range Config.frameLength).map (natByte w))
  else if nbits = 64 ∨ w % 2 = 1 then .command (BitVec.ofNat 64 w)
  else .frame 213#64 (List.replicate 212 0#8 ++ [natByte w 0])

/-- The instruction the decoder reads from a word numbered as `spec/opcode_table.json` numbers it (log 8). -/
def decodeTableWord (nbits w : Nat) : Option Instr :=
  match decode (tableEncoded nbits w) with
  | .ok i => some i
  | .error _ => none

end Sys2Proof
end

