-- ==== Sys2Proof/Machine/State.lean ====
section
/-! DEFINITION. The machine's state as plain data, its faults and refusals, and the state after reset
(10_state.md R10 to R29, 20_memory.md R30, 70_reset_and_hazards.md R140). -/

namespace Sys2Proof.Machine

/-! ## Byte spaces -/

/-- The byte spaces: `IN_BUF` and `OUT_BUF`, and the internal copy `L_BUF` (20_memory.md R30, 10_state.md R17 to R19). -/
inductive Space where
  | inBuf
  | outBuf
  | lBuf
deriving DecidableEq, Repr

/-- The number of bytes of a space (R30). -/
def Space.size : Space → Nat
  | .inBuf => 213
  | .outBuf => 64
  | .lBuf => 213

/-- What an unlisted byte of a space reads as: `OUT_BUF` is 0x00 at reset, the bytes of `IN_BUF` and `L_BUF` have no value
(70_reset_and_hazards.md R140, R141; log 5). -/
def Space.unwritten : Space → Option Byte
  | .inBuf => none
  | .outBuf => some 0x00#8
  | .lBuf => none

/-- The contents of a byte space: (offset, byte) pairs, in the canonical form `Memory.wf`. -/
abbrev Memory := List Host.Cell

/-- Offsets strictly rising. -/
def Memory.rising : Memory → Bool
  | [] => true
  | [_] => true
  | c :: d :: rest => decide (c.1 < d.1) && Memory.rising (d :: rest)

/-- The canonical form: offsets strictly rising and inside the space, and no entry equal to what an unlisted byte
reads as. -/
def Memory.wf (sp : Space) (mem : Memory) : Bool :=
  mem.rising && mem.all fun c => decide (c.1 < sp.size) && decide (sp.unwritten ≠ some c.2)

/-! ## Registers with few values -/

/-- The controller state `CTL` (10_state.md R23). -/
inductive Ctl where
  | idle
  | decode
  | gascheck
  | init
  | round
  | final
  | done
deriving DecidableEq, Repr

/-- The values of `STATUS.CODE` that are produced (10_state.md R15; log 15 for 5, 6 and 7). -/
inductive Code where
  | idle
  | busy
  | success
  | outOfRange
  | outOfGas
deriving DecidableEq, Repr

/-! ## The host's side (log 1, log 10) -/

/-- One host bus access: a register read or write, or a byte read or write of a byte space
(42_controller.md R115, R116; 30_encoding.md R61). -/
inductive Access where
  | regRead (n : Nat)
  | regWrite (n : Nat) (value : Word)
  | inRead (offset : Nat)
  | inWrite (offset : Nat) (byte : Byte)
  | outRead (offset : Nat)
  | outWrite (offset : Nat) (byte : Byte)
deriving DecidableEq, Repr

/-- The condition of a host branch, on the last value read (30_encoding.md R61). -/
inductive Cond where
  | eq (value : Word)
  | ne (value : Word)
  | always
deriving DecidableEq, Repr

/-- One step of an assembled host program: a bus access, a `WAIT`, or a branch to the statement at `target`
(30_encoding.md R61). -/
inductive HostOp where
  | access (a : Access)
  | wait
  | branch (cond : Cond) (target : Nat)
deriving DecidableEq, Repr

/-- The host: its program, the index of its next statement, and the values it has read, newest first (log 10). -/
structure HostSide where
  ops : List HostOp
  pc : Nat
  reads : List Word
deriving DecidableEq, Repr

/-- Who moves next: the round controller, the host, or a reset (20_memory.md R42, 70_reset_and_hazards.md R140; log 1). -/
inductive Turn where
  | controller
  | host
  | reset
deriving DecidableEq, Repr

/-! ## The state -/

/-- The state of the block, and beside it the model's own fields `host` and `turns`.
`xHasValue` is false while register `x` has "no value" (70_reset_and_hazards.md R140, R141; log 3). -/
structure State where
  /-- `IN_LEN`, register 0 (R12). -/
  inLen : Word
  inLenHasValue : Bool
  /-- `GAS_BUDGET`, register 1 (R13). -/
  gasBudget : Word
  gasBudgetHasValue : Bool
  /-- `IN_BUF` (R17). -/
  inBuf : Memory
  /-- `STATUS.CODE`, register 3 (R15). -/
  status : Code
  /-- `GAS_USED`, register 4 (R16). -/
  gasUsed : Word
  /-- `OUT_BUF` (R18). -/
  outBuf : Memory
  /-- `L_LEN` (R19). -/
  lLen : Word
  lLenHasValue : Bool
  /-- `L_BUF` (R19). -/
  lBuf : Memory
  /-- `L_GAS` (R19). -/
  lGas : Word
  lGasHasValue : Bool
  /-- `ROUNDS` (R20). -/
  rounds : Word32
  /-- `H[0..7]` (R20). -/
  h : Vector Word 8
  /-- `M[0..15]` (R20). -/
  m : Vector Word 16
  /-- `T[0..1]` (R20). -/
  t : Vector Word 2
  /-- `F` (R20). -/
  f : Bool
  /-- `V[0..15]` (R21). -/
  v : Vector Word 16
  /-- `RC` (R22). -/
  rc : Word32
  /-- `CTL` (R23). -/
  ctl : Ctl
  /-- The host program and what it has read (log 10). -/
  host : HostSide
  /-- The turns still to come; with none left the controller moves while it is busy, the host otherwise (log 2). -/
  turns : List Turn
deriving DecidableEq, Repr

/-! ## Faults and refusals -/

/-- A register or byte that has "no value" (70_reset_and_hazards.md R141). -/
inductive Unwritten where
  | inLen
  | gasBudget
  | inByte (offset : Nat)
  | lLen
  | lGas
  | lByte (offset : Nat)
deriving DecidableEq, Repr

/-- Why the machine stops with a fault. -/
inductive Fault where
  /-- Raised by a host read of `IN_LEN`, `GAS_BUDGET` or `IN_BUF[k]` before the host has written it, by the DECODE step
  when `L_LEN` or a byte of `L_BUF` it reads has no value, and by the GASCHECK step when `L_GAS` has no value
  (70_reset_and_hazards.md R141, R142). Safe: the spec itself says a model faults there. -/
  | noValue (what : Unwritten)
deriving DecidableEq, Repr

/-- Why the machine has no meaning for what it is asked to do. -/
inductive Refusal where
  /-- An instruction with no meaning yet, by its mnemonic; raised by `exec` only. Safe. -/
  | notModelled (mnemonic : String)
  /-- A host access to a byte offset outside `IN_BUF[0..212]` or `OUT_BUF[0..63]`, which 20_memory.md R30 says a model
  refuses (92 D30); raised by host accesses. Safe. -/
  | outsideByteSpace (sp : Space) (offset : Nat)
deriving DecidableEq, Repr

/-! ## Reset -/

/-- The state right after reset (70_reset_and_hazards.md R140): `CTL` IDLE, `STATUS.CODE` 0, `GAS_USED` 0, `OUT_BUF` all
0x00, and every other register and byte without a value; the numbers and vectors standing in registers without a value are
zero (DESIGN CHOICE: log 3, log 4), and the host has no program yet (log 7, log 10). -/
def State.reset : State where
  inLen := 0
  inLenHasValue := false
  gasBudget := 0
  gasBudgetHasValue := false
  inBuf := []
  status := .idle
  gasUsed := 0
  outBuf := []
  lLen := 0
  lLenHasValue := false
  lBuf := []
  lGas := 0
  lGasHasValue := false
  rounds := 0
  h := Vector.replicate 8 0
  m := Vector.replicate 16 0
  t := Vector.replicate 2 0
  f := false
  v := Vector.replicate 16 0
  rc := 0
  ctl := .idle
  host := { ops := [], pc := 0, reads := [] }
  turns := []

end Sys2Proof.Machine
end

