-- ==== Sys2Proof/Machine/Ops.lean ====
section
/-! DEFINITION. The named operations: reading and writing a byte space, ending an operation with an error, and the reset
event. -/

namespace Sys2Proof.Machine

/-! ## Byte spaces (00_scope.md R8 `MemRead` and `MemWrite`) -/

/-- The listed byte at offset `a`, if there is one. -/
def Memory.find : Memory → Nat → Option Byte
  | [], _ => none
  | c :: rest, a => if c.1 = a then some c.2 else Memory.find rest a

/-- The byte at offset `a`; `none` where it has no value (70_reset_and_hazards.md R141). -/
def Memory.read (sp : Space) (mem : Memory) (a : Nat) : Option Byte :=
  match mem.find a with
  | some b => some b
  | none => sp.unwritten

/-- The entry that stands for byte `b` at offset `a`: none where an unlisted byte reads as `b` already. -/
def Memory.entry (sp : Space) (a : Nat) (b : Byte) (rest : Memory) : Memory :=
  if sp.unwritten = some b then rest else (a, b) :: rest

/-- Writes one byte, keeping the canonical form. -/
def Memory.write (sp : Space) (a : Nat) (b : Byte) : Memory → Memory
  | [] => Memory.entry sp a b []
  | c :: rest =>
    if a < c.1 then Memory.entry sp a b (c :: rest)
    else if a = c.1 then Memory.entry sp a b rest
    else c :: Memory.write sp a b rest

/-- Writes bytes at rising offsets from `a` (R8 `MemWrite`). -/
def Memory.writeBytes (sp : Space) (a : Nat) : List Byte → Memory → Memory
  | [], mem => mem
  | b :: bs, mem => Memory.writeBytes sp (a + 1) bs (Memory.write sp a b mem)

/-- A space holding exactly the bytes `bs` from offset `a` on, for a space whose unlisted bytes have no value. -/
def Memory.cellsFrom (a : Nat) : List Byte → Memory
  | [] => []
  | b :: bs => (a, b) :: Memory.cellsFrom (a + 1) bs

/-- Byte `k` of `OUT_BUF` (10_state.md R18): every byte of it has a value. -/
def State.outByte (s : State) (k : Nat) : Byte := (s.outBuf.read .outBuf k).getD 0x00#8

/-- The 64 bytes a host reads from `OUT_BUF` (R18). -/
def State.outBytes (s : State) : List Byte := (List.range Space.outBuf.size).map s.outByte

/-! ## Errors (60_exceptions.md R120, R126) -/

/-- The two error kinds (R120). -/
inductive OpError where
  | outOfRange
  | outOfGas
deriving DecidableEq, Repr

/-- The `STATUS.CODE` an error leaves (R120). -/
def OpError.code : OpError → Code
  | .outOfRange => .outOfRange
  | .outOfGas => .outOfGas

/-- `raise E()` (R126): the code and `CTL <- DONE`, in the step that detects the error. Nothing is saved, no handler runs,
and `GAS_USED` and `OUT_BUF` keep the zeros START wrote. There is no return from an error (R127): the next accepted START
moves the controller on. -/
def raise (e : OpError) (s : State) : State :=
  { s with status := e.code, ctl := .done }

/-! ## Reset and the host's record -/

/-- A reset event (70_reset_and_hazards.md R140): every register of the block at its reset value. The host and the
schedule are outside the block and stay. -/
def resetBlock (s : State) : State :=
  { State.reset with host := s.host, turns := s.turns }

/-- The value a host read returned (30_encoding.md R61). -/
def State.recordRead (s : State) (w : Word) : State :=
  { s with host := { s.host with reads := w :: s.host.reads } }

/-- The turn at the head of the schedule is used up (log 1). -/
def State.pop (s : State) : State := { s with turns := s.turns.tail }

/-- The host moves to the statement at `pc`. -/
def State.hostGoto (s : State) (pc : Nat) : State :=
  { s with host := { s.host with pc := pc } }

end Sys2Proof.Machine
end

