-- ==== Sys2Proof/Machine/Flags.lean ====
section
/-! DEFINITION. `STATUS.CODE`, the block's only flag set (10_state.md R15, R26), and what is computed from it and from
`CTL`. -/

namespace Sys2Proof.Machine

/-- The number of a code (R15). -/
def Code.toWord : Code → Word
  | .idle => 0
  | .busy => 1
  | .success => 2
  | .outOfRange => 3
  | .outOfGas => 4

/-- The terminal codes 2, 3 and 4 (R15). -/
def Code.terminal : Code → Bool
  | .idle => false
  | .busy => false
  | .success => true
  | .outOfRange => true
  | .outOfGas => true

/-- The `STATUS` register as the host reads it: bits 63..3 are 0 (R15). -/
def State.statusWord (s : State) : Word := s.status.toWord

/-- The optional level output `done` (60_exceptions.md R129): a pure function of `STATUS`. -/
def State.doneLevel (s : State) : Bool := s.status.terminal

/-- The states in which an operation runs (R15, 42_controller.md R101). -/
def Ctl.busy : Ctl → Bool
  | .idle => false
  | .decode => true
  | .gascheck => true
  | .init => true
  | .round => true
  | .final => true
  | .done => false

end Sys2Proof.Machine
end

