-- ==== Sys2Proof/Machine/Command.lean ====
section
/-! DEFINITION. The meaning of START (42_controller.md R100, R101). -/

namespace Sys2Proof.Machine

/-- START accepted (R100), one indivisible step: the inputs are latched, bytes and registers without a value staying so in
the latch (70_reset_and_hazards.md R142), the result registers cleared, `STATUS.CODE` BUSY, `CTL` DECODE. -/
def latchInputs (s : State) : State :=
  { s with
    lLen := s.inLen
    lLenHasValue := s.inLenHasValue
    lBuf := s.inBuf
    lGas := s.gasBudget
    lGasHasValue := s.gasBudgetHasValue
    outBuf := []
    gasUsed := 0
    status := .busy
    ctl := .decode }

/-- START: accepted in IDLE and DONE (R100); while an operation runs it is dropped, with no effect (R101). The ignored bits
of the command word have no effect (30_encoding.md R56). -/
def execStart (_ignored : BitVec 63) (s : State) : Host.Outcome State Fault Refusal :=
  if s.ctl.busy then .next s else .next (latchInputs s)

end Sys2Proof.Machine
end

