-- ==== Sys2Proof/Machine/Operands.lean ====
section
/-! DEFINITION. Where the operands stand: the host's register map (10_state.md R11), the latched frame (R19) and the
decoded-call registers (R20). -/

namespace Sys2Proof.Machine

/-! ## The register map (10_state.md R11 to R16, 42_controller.md R115, R116) -/

/-- A host register read (R115): a register with no value faults (70_reset_and_hazards.md R141); `CMD` and the reserved
numbers read 0 (log 12). -/
def State.regRead (s : State) : Nat → Except Fault Word
  | 0 => if s.inLenHasValue then .ok s.inLen else .error (.noValue .inLen)
  | 1 => if s.gasBudgetHasValue then .ok s.gasBudget else .error (.noValue .gasBudget)
  | 2 => .ok 0
  | 3 => .ok s.statusWord
  | 4 => .ok s.gasUsed
  | _ => .ok 0

/-- A host register write other than a command (R116): `IN_LEN` and `GAS_BUDGET` store the value, the read-only and
reserved numbers ignore it. A write to `CMD` goes to the command decoder (`fetchHost`); its word holds no state (R14). -/
def State.regWrite (s : State) (value : Word) : Nat → State
  | 0 => { s with inLen := value, inLenHasValue := true }
  | 1 => { s with gasBudget := value, gasBudgetHasValue := true }
  | _ => s

/-! ## The latched frame and the decoded call -/

/-- The input decoder applied to `L_LEN` and `L_BUF` (40_decoder.md R70, R71). -/
def State.decodeLatched (s : State) : Except Reject Instr :=
  decodeFrame s.lLen (s.lBuf.read .lBuf)

/-- The flag byte that stands for a final flag (30_encoding.md R53, R60). -/
def flagByte (final : Bool) : Byte := if final then 0x01#8 else 0x00#8

/-- The instruction held in the decoded-call registers (10_state.md R20): the one in progress after DECODE. -/
def State.currentCall (s : State) : Instr :=
  .blake2f s.rounds s.h s.m s.t (flagByte s.f)

end Sys2Proof.Machine
end

