-- ==== Sys2Proof/Machine/Mixer.lean ====
section
/-! DEFINITION. The compression datapath: word operations, constant stores, `G`, the round, the work-vector seed, the fold
and `compress` (41_compression.md R75 to R95). -/

namespace Sys2Proof.Machine

/-- `rotr64(x, n)` for `0 < n < 64` (00_scope.md R7). -/
def rotr64 (x : Word) (n : Nat) : Word := x >>> n ||| x <<< (64 - n)

/-! ## Constant stores (10_state.md R24) -/

/-- `IV[0..7]` (R76; PRESUMED by the spec itself: log 13). -/
def iv : Vector Word 8 :=
  #v[0x6a09e667f3bcc908, 0xbb67ae8584caa73b, 0x3c6ef372fe94f82b, 0xa54ff53a5f1d36f1,
     0x510e527fade682d1, 0x9b05688c2b3e6c1f, 0x1f83d9abfb41bd6b, 0x5be0cd19137e2179]

/-- `SIGMA[0..9][0..15]` (R77; PRESUMED by the spec itself: log 13). -/
def sigma : Vector (Vector (Fin 16) 16) 10 :=
  #v[#v[0, 1, 2, 3, 4, 5, 6, 7, 8, 9, 10, 11, 12, 13, 14, 15],
     #v[14, 10, 4, 8, 9, 15, 13, 6, 1, 12, 0, 2, 11, 7, 5, 3],
     #v[11, 8, 12, 0, 5, 2, 15, 13, 10, 14, 3, 6, 7, 1, 9, 4],
     #v[7, 9, 3, 1, 13, 12, 11, 14, 2, 6, 5, 10, 4, 0, 15, 8],
     #v[9, 0, 5, 7, 2, 4, 10, 15, 14, 1, 11, 12, 6, 8, 3, 13],
     #v[2, 12, 6, 10, 0, 11, 8, 3, 4, 13, 7, 5, 15, 14, 1, 9],
     #v[12, 5, 1, 15, 14, 13, 4, 10, 0, 7, 6, 3, 9, 2, 8, 11],
     #v[13, 11, 7, 14, 12, 1, 3, 9, 5, 0, 15, 4, 8, 6, 2, 10],
     #v[6, 15, 14, 9, 11, 3, 0, 8, 12, 2, 13, 7, 1, 4, 10, 5],
     #v[10, 2, 8, 4, 7, 6, 1, 5, 15, 11, 9, 14, 3, 12, 13, 0]]

/-- The row of round `r`: `SIGMA[r mod 10]` (R82). -/
def sigmaRow (r : Word32) : Vector (Fin 16) 16 :=
  sigma[r.toNat % 10]'(Nat.mod_lt _ (by decide))

/-! ## The mixing function (R79) -/

/-- `G(V, a, b, c, d, x, y)`: the eight assignments in order, each reading what the ones before it wrote (R79, R80). -/
def mixG (v : Vector Word 16) (a b c d : Fin 16) (x y : Word) : Vector Word 16 :=
  let v := v.set a (v[a] + v[b] + x)
  let v := v.set d (rotr64 (v[d] ^^^ v[a]) 32)
  let v := v.set c (v[c] + v[d])
  let v := v.set b (rotr64 (v[b] ^^^ v[c]) 24)
  let v := v.set a (v[a] + v[b] + y)
  let v := v.set d (rotr64 (v[d] ^^^ v[a]) 16)
  let v := v.set c (v[c] + v[d])
  v.set b (rotr64 (v[b] ^^^ v[c]) 63)

/-! ## Rounds (R81, R82) -/

/-- One row of the table of R81: the four work-vector indices of application `j`. -/
structure Quad where
  a : Fin 16
  b : Fin 16
  c : Fin 16
  d : Fin 16
deriving DecidableEq, Repr

/-- The eight applications of a round: the columns, then the diagonals (R81). -/
def quads : Vector Quad 8 :=
  #v[⟨0, 4, 8, 12⟩, ⟨1, 5, 9, 13⟩, ⟨2, 6, 10, 14⟩, ⟨3, 7, 11, 15⟩,
     ⟨0, 5, 10, 15⟩, ⟨1, 6, 11, 12⟩, ⟨2, 7, 8, 13⟩, ⟨3, 4, 9, 14⟩]

/-- Application `j` of round `r`: `G` on the `j`-th quadruple with the message words `SIGMA[r mod 10][2j]` and
`SIGMA[r mod 10][2j+1]` (R81). -/
def applyG (m : Vector Word 16) (r : Word32) (v : Vector Word 16) (j : Fin 8) : Vector Word 16 :=
  let q := quads[j]
  let row := sigmaRow r
  mixG v q.a q.b q.c q.d m[row[2 * j.val]] m[row[2 * j.val + 1]]

/-- `round(V, M, r)` as the pseudocode writes it (R82). -/
def round (v m : Vector Word 16) (r : Word32) : Vector Word 16 :=
  let s := sigmaRow r
  let v := mixG v 0 4 8 12 m[s[0]] m[s[1]]
  let v := mixG v 1 5 9 13 m[s[2]] m[s[3]]
  let v := mixG v 2 6 10 14 m[s[4]] m[s[5]]
  let v := mixG v 3 7 11 15 m[s[6]] m[s[7]]
  let v := mixG v 0 5 10 15 m[s[8]] m[s[9]]
  let v := mixG v 1 6 11 12 m[s[10]] m[s[11]]
  let v := mixG v 2 7 8 13 m[s[12]] m[s[13]]
  mixG v 3 4 9 14 m[s[14]] m[s[15]]

/-- Rounds `0, 1, …, n-1` in increasing order (R85). -/
def runRounds (v m : Vector Word 16) : Nat → Vector Word 16
  | 0 => v
  | n + 1 => round (runRounds v m n) m (BitVec.ofNat 32 n)

/-! ## Initialisation and output (R83 to R85) -/

/-- `init(h, t, final)` (R83). -/
def initVector (h : Vector Word 8) (t : Vector Word 2) (final : Bool) : Vector Word 16 :=
  let v : Vector Word 16 := Vector.ofFn fun i => if hi : i.val < 8 then h[i.val] else iv[i.val - 8]
  let v := v.set 12 (v[12] ^^^ t[0])
  let v := v.set 13 (v[13] ^^^ t[1])
  if final then v.set 14 (~~~ v[14]) else v

/-- `fold(h, V)` (R84). -/
def fold (h : Vector Word 8) (v : Vector Word 16) : Vector Word 8 :=
  Vector.ofFn fun i => h[i] ^^^ v[i.val] ^^^ v[i.val + 8]

/-- `serialise(h')` (R84, 30_encoding.md R55). -/
def serialise (w : Vector Word 8) : List Byte := w.toList.flatMap le64Bytes

/-- `compress(h, m, t, final, rounds)` (R85). -/
def compress (h : Vector Word 8) (m : Vector Word 16) (t : Vector Word 2) (final : Bool) (rounds : Word32) : Vector Word 8 :=
  fold h (runRounds (initVector h t final) m rounds.toNat)

end Sys2Proof.Machine
end

