-- ==== Sys2Proof/Machine/Controller.lean ====
section
/-! DEFINITION. The meaning of BLAKE2F: the round controller's steps (40_decoder.md R70, 42_controller.md R102 to R109) and
the transaction-level function they compose to (R110). -/

namespace Sys2Proof.Machine

/-- DECODE on a legal frame (R70): the decoded fields go to the decoded-call registers. -/
def decodeStep (rounds : Word32) (h : Vector Word 8) (m : Vector Word 16) (t : Vector Word 2) (f : Byte) (s : State) : State :=
  { s with rounds := rounds, h := h, m := m, t := t, f := f.getLsbD 0, ctl := .gascheck }

/-- The cost of a call: `zext_64(rounds) * ROUND_GAS_UNIT` in 64 bits (R102, R103). -/
def gasCost (rounds : Word32) : Word := rounds.setWidth 64 * Config.roundGasUnit

/-- GASCHECK (R102); reading `L_GAS` while it has no value faults (70_reset_and_hazards.md R141, R142). -/
def gasCheckStep (s : State) : Host.Outcome State Fault Refusal :=
  if s.lGasHasValue then
    .next (if s.lGas < gasCost s.rounds then raise .outOfGas s else { s with ctl := .init })
  else .fault (.noValue .lGas)

/-- INIT (R104). -/
def initStep (s : State) : State :=
  { s with v := initVector s.h s.t s.f, rc := 0, ctl := if s.rounds = 0 then .final else .round }

/-- ROUND (R105). -/
def roundStep (s : State) : State :=
  { s with v := round s.v s.m s.rc, rc := s.rc + 1, ctl := if s.rc + 1 = s.rounds then .final else .round }

/-- FINAL (R107): `OUT_BUF`, `GAS_USED` and `STATUS` in one indivisible step (20_memory.md R38). -/
def finalStep (s : State) : State :=
  { s with
    outBuf := s.outBuf.writeBytes .outBuf 0 (serialise (fold s.h s.v))
    gasUsed := gasCost s.rounds
    status := .success
    ctl := .done }

/-- BLAKE2F, one controller step at a time (log 6): DECODE takes the operands the decoder read from the latched frame;
the later steps work on the decoded-call registers (10_state.md R29), which hold those operands. IDLE and DONE have no
controller step (R108). -/
def execBlake2f (rounds : Word32) (h : Vector Word 8) (m : Vector Word 16) (t : Vector Word 2) (f : Byte) (s : State) :
    Host.Outcome State Fault Refusal :=
  match s.ctl with
  | .idle => .next s
  | .decode => .next (decodeStep rounds h m t f s)
  | .gascheck => gasCheckStep s
  | .init => .next (initStep s)
  | .round => .next (roundStep s)
  | .final => .next (finalStep s)
  | .done => .next s

/-! ## The transaction-level function (R110) -/

/-- What an operation leaves in the result registers. -/
structure Result where
  code : Code
  gasUsed : Word
  out : List Byte
deriving DecidableEq, Repr

/-- 64 zero bytes. -/
def zeroOutput : List Byte := List.replicate Config.outputLength 0x00#8

/-- `run` on a decoded call: the gas gate, then the compression (R110). -/
def runCall (gas : Word) : Instr → Option Result
  | .blake2f rounds h m t f =>
    if gas < gasCost rounds then some ⟨.outOfGas, 0, zeroOutput⟩
    else some ⟨.success, gasCost rounds, serialise (compress h m t (f.getLsbD 0) rounds)⟩
  | .start _ => none

/-- `run(len, buf, gas)` (R110); `none` where the decoder needs a byte that has no value. -/
def run (len : Word) (byte? : Nat → Option Byte) (gas : Word) : Option Result :=
  match decodeFrame len byte? with
  | .ok i => runCall gas i
  | .error (.noByte _) => none
  | .error _ => some ⟨.outOfRange, 0, zeroOutput⟩

end Sys2Proof.Machine
end

