-- ==== Sys2Proof/Machine/HostPort.lean ====
section
/-! DEFINITION. The host's bus accesses and the control flow of its program (42_controller.md R115, R116; 30_encoding.md
R61; 20_memory.md R30, R39). -/

namespace Sys2Proof.Machine

/-- A host read of `IN_BUF[k]`: the byte is recorded as the value read, a byte with no value faults (R115,
70_reset_and_hazards.md R141). -/
def readInByte (k : Nat) (s : State) : Host.Outcome State Fault Refusal :=
  match s.inBuf.read .inBuf k with
  | some b => .next (s.recordRead (b.setWidth 64))
  | none => .fault (.noValue (.inByte k))

/-- One host access that is no command (R115, R116): an offset outside the byte space is refused (R30; log 11); a write to
`OUT_BUF` is ignored (R116); no read changes the block (R39). -/
def hostAccess (s : State) : Access → Host.Outcome State Fault Refusal
  | .regRead n =>
    match s.regRead n with
    | .ok w => .next (s.recordRead w)
    | .error e => .fault e
  | .regWrite n value => .next (s.regWrite value n)
  | .inRead k =>
    if k < Space.inBuf.size then readInByte k s else .refused (.outsideByteSpace .inBuf k)
  | .inWrite k b =>
    if k < Space.inBuf.size then .next { s with inBuf := s.inBuf.write .inBuf k b }
    else .refused (.outsideByteSpace .inBuf k)
  | .outRead k =>
    if k < Space.outBuf.size then .next (s.recordRead ((s.outByte k).setWidth 64))
    else .refused (.outsideByteSpace .outBuf k)
  | .outWrite k _ =>
    if k < Space.outBuf.size then .next s else .refused (.outsideByteSpace .outBuf k)

/-- Whether a branch is taken, on the last value read (R61). Before any read `EQ` is not taken and `NE` is (DESIGN CHOICE: log 10). -/
def Cond.holds (last : Option Word) : Cond → Bool
  | .eq value => last == some value
  | .ne value => last != some value
  | .always => true

/-- `WAIT` (R61): one read of `STATUS`; the host stays at this statement until the code read is terminal. -/
def hostWait (s : State) : State :=
  (s.recordRead s.statusWord).hostGoto (if s.status.terminal then s.host.pc + 1 else s.host.pc)

/-- A host branch (R61): no bus action. -/
def hostBranch (cond : Cond) (target : Nat) (s : State) : State :=
  s.hostGoto (if cond.holds s.host.reads.head? then target else s.host.pc + 1)

end Sys2Proof.Machine
end

