-- ==== Sys2Proof/Machine/Fetch.lean ====
section
/-! DEFINITION. Who moves next, and what it does: an instruction read by one of the two decoders, or anything else a step
can be (a host access, an illegal frame, a reset, nothing). -/

namespace Sys2Proof.Machine

/-- What a step turns out to be. -/
inductive Fetched where
  | instr (i : Instr) (s : State)
  | act (o : Host.Outcome State Fault Refusal)
deriving Repr

/-- The controller's turn. In DECODE the decoder reads the latched frame: a legal one is a BLAKE2F, an illegal one raises
OUT_OF_RANGE (40_decoder.md R70), and a byte or a length with no value faults (70_reset_and_hazards.md R141). In the later
states the instruction in progress is the one in the decoded-call registers. IDLE and DONE have no controller step
(42_controller.md R108). -/
def fetchController (s : State) : Fetched :=
  match s.ctl with
  | .idle => .act (.next s)
  | .done => .act (.next s)
  | .decode =>
    if s.lLenHasValue then
      match s.decodeLatched with
      | .ok i => .instr i s
      | .error (.noByte k) => .act (.fault (.noValue (.lByte k)))
      | .error _ => .act (.next (raise .outOfRange s))
    else .act (.fault (.noValue .lLen))
  | .gascheck => .instr s.currentCall s
  | .init => .instr s.currentCall s
  | .round => .instr s.currentCall s
  | .final => .instr s.currentCall s

/-- A host access, `s` standing at the host's next statement: a write to register 2 goes to the command decoder, and a
word that is no command has no effect (10_state.md R14, 30_encoding.md R56). -/
def fetchAccess (s : State) : Access → Fetched
  | .regWrite 2 value =>
    match decodeCommand value with
    | .ok i => .instr i s
    | .error _ => .act (.next s)
  | a => .act (hostAccess s a)

/-- The host's turn (30_encoding.md R61): a host whose program has ended does nothing (log 19). -/
def fetchHost (s : State) : Fetched :=
  match s.host.ops[s.host.pc]? with
  | none => .act (.next s)
  | some (.access a) => fetchAccess (s.hostGoto (s.host.pc + 1)) a
  | some .wait => .act (.next (hostWait s))
  | some (.branch cond target) => .act (.next (hostBranch cond target s))

/-- Who moves next in the total order of host accesses and block steps (20_memory.md R42): the head of `turns`; with none
left, the controller while it is busy and the host otherwise (DESIGN CHOICE: log 2). -/
def State.nextTurn (s : State) : Turn :=
  match s.turns with
  | [] => if s.ctl.busy then .controller else .host
  | turn :: _ => turn

/-- What the next step is. -/
def fetch (s : State) : Fetched :=
  match s.nextTurn with
  | .controller => fetchController s.pop
  | .host => fetchHost s.pop
  | .reset => .act (.next (resetBlock s.pop))

/-! ## Placing an instruction where the next step fetches it (log 7) -/

/-- A frame is placed in the latches with the controller in DECODE and about to move; a command word is placed as the
host's one statement, a write to `CMD`, with the host about to move. -/
def placeEncoded (s : State) : Encoded → State
  | .frame len bytes =>
    { s with
      lLen := len
      lLenHasValue := true
      lBuf := Memory.cellsFrom 0 bytes
      status := .busy
      ctl := .decode
      turns := .controller :: s.turns }
  | .command w =>
    { s with
      host := { s.host with ops := [.access (.regWrite 2 w)], pc := 0 }
      turns := .host :: s.turns }

end Sys2Proof.Machine
end

