-- ==== Sys2Proof/Machine/Step.lean ====
section
/-! DEFINITION. One step of the machine: one controller step, one host access or branch, or one reset. -/

namespace Sys2Proof.Machine

/-- Fetches what comes next and performs it. -/
def step (s : State) : Host.Outcome State Fault Refusal :=
  match fetch s with
  | .instr i t => exec i t
  | .act o => o

/-- `s` with the opcode-table word `w` stored where the next step fetches its instruction (log 7, log 8). -/
def State.withFetchWord (s : State) (nbits w : Nat) : State :=
  placeEncoded s (tableEncoded nbits w)

end Sys2Proof.Machine
end

