-- ==== Sys2Proof/Machine/Bus.lean ====
section
/-! DEFINITION. What a bus cycle does under a given `BUS_BINDING` (00_scope.md R6; 20_memory.md R34, R36 to R38; log 9): the
binding is an argument, and no part of the machine but this file reads one. -/

namespace Sys2Proof.Machine

/-- A transfer takes place when its handshake, its width and its address allow it (R36, R37). The spec does not say what a
cycle that asserts reset does besides: it makes no transfer, so a write has no effect and a read answers no lane (DESIGN CHOICE:
log 9). -/
def takes (binding : Config.BusBinding) (c : Config.BusCycle) : Bool :=
  !binding.assertsReset c && binding.accepts c && binding.widths.contains c.lanes.length &&
    binding.aligned c.address c.lanes.length

/-! ## The bytes of a numeric register (R34) -/

/-- Which byte of the number, counted from the least significant, stands at a position on the bus; and, the two orders being
their own inverses, at which position a byte of the number stands. -/
def significance : Config.ByteOrder → Nat → Nat
  | .little, k => k
  | .big, k => 7 - k

/-- A number's eight bytes as they stand on the bus. -/
def numericBytes (order : Config.ByteOrder) (w : Word) : List Byte :=
  (List.range 8).map fun k => wordByte w (significance order k)

/-- The number that eight bytes stand for. -/
def numericWord (order : Config.ByteOrder) (byte : Nat → Byte) : Word :=
  le64 (fun k => byte (significance order k)) 0

/-! ## Reads -/

/-- The host access a lane makes on a read, and which byte of the value read it carries. -/
def laneAccess (order : Config.ByteOrder) : Config.LaneTarget → Access × Nat
  | .registerByte n position => (.regRead n, significance order position)
  | .inByte k => (.inRead k, 0)
  | .outByte k => (.outRead k, 0)

/-- What a lane carries on a read of the state `s`: nothing if it reaches nothing. -/
def laneByte (order : Config.ByteOrder) (s : State) :
    Option Config.LaneTarget → Host.Outcome (Option Byte) Fault Refusal
  | none => .next none
  | some target =>
    match hostAccess s (laneAccess order target).1 with
    | .next t => .next (t.host.reads.head?.map fun w => wordByte w (laneAccess order target).2)
    | .fault e => .fault e
    | .refused e => .refused e

/-- The first `count` lanes of a read; `seen i` is the block when lane `i` is read, `seen 0` for every lane of an atomic
read (R38). Each cycle is read on its own, so that a register read over several cycles is not atomic (DESIGN CHOICE: log 9).
The lowest lane that cannot be read stops the read (DESIGN CHOICE: log 9). -/
def readLanes (binding : Config.BusBinding) (seen : Nat → State) (c : Config.BusCycle) :
    (count : Nat) → Host.Outcome (List (Option Byte)) Fault Refusal
  | 0 => .next []
  | i + 1 =>
    match readLanes binding seen c i with
    | .next bytes =>
      match laneByte binding.numericOrder (seen (if binding.readsAtomically c then 0 else i)) (binding.lane c i) with
      | .next b => .next (bytes ++ [b])
      | .fault e => .fault e
      | .refused e => .refused e
    | .fault e => .fault e
    | .refused e => .refused e

/-- What a read cycle answers, lane by lane; a transfer that does not take place answers no lane. -/
def busRead (binding : Config.BusBinding) (seen : Nat → State) (c : Config.BusCycle) :
    Host.Outcome (List (Option Byte)) Fault Refusal :=
  if takes binding c && !c.isWrite then readLanes binding seen c c.lanes.length else .next []

/-! ## Writes -/

/-- A byte of a register write that has come over the bus while the write is not complete. -/
structure StagedByte where
  register : Nat
  position : Fin 8
  byte : Byte
deriving DecidableEq, Repr

/-- The bus side's own store, newest first; it is no part of the block. -/
abbrev Staged := List StagedByte

/-- The staged byte at a position of register `n`. -/
def Staged.byte? (staged : Staged) (n : Nat) (position : Fin 8) : Option Byte :=
  (staged.find? fun e => e.register == n && e.position == position).map StagedByte.byte

/-- The bytes a transfer carries, each with what its lane reaches. -/
def carried (binding : Config.BusBinding) (c : Config.BusCycle) : List (Config.LaneTarget × Byte) :=
  (List.range c.lanes.length).filterMap fun i =>
    (binding.lane c i).bind fun target => (c.lanes[i]?).map fun b => (target, b)

/-- Stages a carried byte that belongs to a register. -/
def stageByte (staged : Staged) : Config.LaneTarget × Byte → Staged
  | (.registerByte n position, b) => ⟨n, position, b⟩ :: staged
  | (.inByte _, _) => staged
  | (.outByte _, _) => staged

/-- The byte space access a carried byte makes. -/
def byteAccess : Config.LaneTarget × Byte → Option Access
  | (.registerByte _ _, _) => none
  | (.inByte k, b) => some (.inWrite k b)
  | (.outByte k, b) => some (.outWrite k b)

/-- The register a carried byte belongs to. -/
def registerNumber : Config.LaneTarget × Byte → Option Nat
  | (.registerByte n _, _) => some n
  | (.inByte _, _) => none
  | (.outByte _, _) => none

/-- The byte at a position of a write of register `n`: the staged one, or what the binding takes where there is none. Under
`held`, a register without a value (70_reset_and_hazards.md R141) gives no byte, and the write then waits for it as under
`waits`, neither faulting nor writing; the spec does not speak of this case (DESIGN CHOICE: log 9). -/
def pendingByte (binding : Config.BusBinding) (s : State) (staged : Staged) (n : Nat) (position : Fin 8) : Option Byte :=
  match staged.byte? n position, binding.missing n with
  | some b, _ => some b
  | none, .waits => none
  | none, .zero => some 0x00#8
  | none, .held =>
    match s.regRead n with
    | .ok w => some (wordByte w (significance binding.numericOrder position))
    | .error _ => none

/-- The number a write of register `n` carries, once all eight bytes are there. -/
def pendingWord (binding : Config.BusBinding) (s : State) (staged : Staged) (n : Nat) : Option Word :=
  if (List.finRange 8).all fun p => (pendingByte binding s staged n p).isSome then
    some (numericWord binding.numericOrder fun k => (pendingByte binding s staged n (Fin.ofNat 8 k)).getD 0x00#8)
  else none

/-- What a write transfer leaves staged, and the host accesses it makes (R37): the byte space writes in lane order, then the
register writes that are complete, a register whose first carried lane is lower before one whose first carried lane is
higher. The spec gives no order among the accesses of one transfer (DESIGN CHOICE for this order: log 9). -/
def busWrite (binding : Config.BusBinding) (staged : Staged) (s : State) (c : Config.BusCycle) : Staged × List Access :=
  let bytes := carried binding c
  let now := bytes.foldl stageByte staged
  let writes := (bytes.filterMap registerNumber).eraseDups.filterMap fun n =>
    (pendingWord binding s now n).map fun w => (n, w)
  (now.filter fun e => !(writes.map Prod.fst).contains e.register,
    bytes.filterMap byteAccess ++ writes.map fun r => .regWrite r.1 r.2)

/-! ## Cycles -/

/-- One host access made over the bus, with the meaning a host statement of that access has. -/
def busAccess (s : State) (a : Access) : Host.Outcome State Fault Refusal :=
  match fetchAccess s a with
  | .instr i t => exec i t
  | .act o => o

/-- Host accesses one after the other. -/
def busAccesses (s : State) : List Access → Host.Outcome State Fault Refusal
  | [] => .next s
  | a :: rest =>
    match busAccess s a with
    | .next t => busAccesses t rest
    | .fault e => .fault e
    | .refused e => .refused e

/-- The block and the bus side's store. -/
structure BusPort where
  block : State
  staged : Staged
deriving DecidableEq, Repr

/-- What a bus cycle leaves: a reset if it asserts one (70_reset_and_hazards.md R140), the accesses of a write that takes
place, and nothing else; a read changes no state (20_memory.md R39). That a reset empties the bus side's store is the model's
(DESIGN CHOICE: log 9). -/
def busCycle (binding : Config.BusBinding) (port : BusPort) (c : Config.BusCycle) : Host.Outcome BusPort Fault Refusal :=
  if binding.assertsReset c then .next ⟨resetBlock port.block, []⟩
  else if takes binding c && c.isWrite then
    match busAccesses port.block (busWrite binding port.staged port.block c).2 with
    | .next t => .next ⟨t, (busWrite binding port.staged port.block c).1⟩
    | .fault e => .fault e
    | .refused e => .refused e
  else .next port

end Sys2Proof.Machine
end

