-- ==== Sys2Proof/Machine/Halves.lean ====
section
/-! DEFINITION. The 32-bit-half form of the word operations (41_compression.md R95): what an implementation with narrower
words computes. -/

namespace Sys2Proof.Machine

/-- The halves `(hi, lo)` of a word (R95). -/
structure Halves where
  hi : Word32
  lo : Word32
deriving DecidableEq, Repr

/-- The halves of a 64-bit word. -/
def toHalves (x : Word) : Halves := ⟨x.extractLsb' 32 32, x.extractLsb' 0 32⟩

/-- The word two halves stand for. -/
def ofHalves (x : Halves) : Word := x.hi ++ x.lo

/-- `rotr64(x, 32)` on halves (R95). -/
def halvesRotr32 (x : Halves) : Halves := ⟨x.lo, x.hi⟩

/-- `rotr64(x, 24)` on halves (R95). -/
def halvesRotr24 (x : Halves) : Halves := ⟨x.hi >>> 24 ||| x.lo <<< 8, x.lo >>> 24 ||| x.hi <<< 8⟩

/-- `rotr64(x, 16)` on halves (R95). -/
def halvesRotr16 (x : Halves) : Halves := ⟨x.hi >>> 16 ||| x.lo <<< 16, x.lo >>> 16 ||| x.hi <<< 16⟩

/-- `rotr64(x, 63)` on halves: rotation left by 1 (R95). -/
def halvesRotr63 (x : Halves) : Halves := ⟨x.hi <<< 1 ||| x.lo >>> 31, x.lo <<< 1 ||| x.hi >>> 31⟩

/-- `x +64 y` on halves, with the carry of the low half (R95). -/
def halvesAdd (x y : Halves) : Halves :=
  let low := x.lo.toNat + y.lo.toNat
  let carry := low / 2 ^ 32
  ⟨BitVec.ofNat 32 (x.hi.toNat + y.hi.toNat + carry), BitVec.ofNat 32 low⟩

end Sys2Proof.Machine
end

