-- ==== Sys2Proof/Machine/HostAsm.lean ====
section
/-! DEFINITION. The host's program notation as syntax, and its assembly into the host's steps (30_encoding.md R59 to
R62). -/

namespace Sys2Proof.Machine

/-- A frame operand: `FRAME` (R59) with any bytes, or the structured form (R60), in which `m` may list fewer than sixteen
words. -/
inductive FrameSyntax where
  | raw (bytes : List Byte)
  | blake2f (rounds : Word32) (h : Vector Word 8) (m : List Word) (t : Vector Word 2) (final : Bool)
deriving DecidableEq, Repr

/-- The missing message words are 0 (R60). -/
def padMessage (m : List Word) : Vector Word 16 := Vector.ofFn fun i => m.getD i.val 0

/-- The bytes a frame operand denotes (R59, R60). -/
def FrameSyntax.bytes : FrameSyntax → Option (List Byte)
  | .raw bytes => some bytes
  | .blake2f rounds h m t final =>
    if m.length ≤ 16 then some (frameBytes rounds h (padMessage m) t (flagByte final)) else none

/-- A statement of a host program (R61), with the pseudo-instruction `CALL` (R62). -/
inductive Stmt where
  | wr (reg : Nat) (value : Word)
  | wrbuf (offset : Nat) (bytes : List Byte)
  | start
  | rd (reg : Nat)
  | rdbuf (offset n : Nat)
  | wait
  | label (name : List Char)
  | br (cond : Cond) (target : List Char)
  | call (frame : FrameSyntax) (gas : Word)
deriving DecidableEq, Repr

/-- The expansion of `CALL` (R62); every other statement stands for itself. -/
def Stmt.expand : Stmt → Option (List Stmt)
  | .call frame gas =>
    match frame.bytes with
    | some bytes =>
      some [.wr 0 (BitVec.ofNat 64 bytes.length), .wrbuf 0 (bytes.take 213), .wr 1 gas, .start, .wait]
    | none => none
  | s => some [s]

/-- Byte writes at rising offsets (R61 `WRBUF`; log 21). -/
def writeOps (offset : Nat) : List Byte → List HostOp
  | [] => []
  | b :: bs => .access (.inWrite offset b) :: writeOps (offset + 1) bs

/-- Byte reads at rising offsets (R61 `RDBUF`; log 21). -/
def readOps (offset : Nat) : Nat → List HostOp
  | 0 => []
  | n + 1 => .access (.outRead offset) :: readOps (offset + 1) n

/-- How many host steps a statement takes up; a label takes none. -/
def Stmt.size : Stmt → Nat
  | .wr _ _ => 1
  | .wrbuf _ bytes => bytes.length
  | .start => 1
  | .rd _ => 1
  | .rdbuf _ n => n
  | .wait => 1
  | .label _ => 0
  | .br _ _ => 1
  | .call _ _ => 0

/-- Where each label stands. -/
def labelTable (at_ : Nat) : List Stmt → List (List Char × Nat)
  | [] => []
  | .label name :: rest => (name, at_) :: labelTable at_ rest
  | s :: rest => labelTable (at_ + s.size) rest

/-- The host steps of an expanded statement (R61); a branch to a label that stands nowhere does not assemble. -/
def Stmt.ops (labels : List (List Char × Nat)) : Stmt → Option (List HostOp)
  | .wr reg value => some [.access (.regWrite reg value)]
  | .wrbuf offset bytes => some (writeOps offset bytes)
  | .start => some [.access (.regWrite 2 1)]
  | .rd reg => some [.access (.regRead reg)]
  | .rdbuf offset n => some (readOps offset n)
  | .wait => some [.wait]
  | .label _ => some []
  | .br cond target => (labels.lookup target).map fun pc => [.branch cond pc]
  | .call _ _ => none

/-- Assembles a host program (R61, R62). -/
def assemble (program : List Stmt) : Option (List HostOp) := do
  let expanded := (← program.mapM Stmt.expand).flatten
  return (← expanded.mapM (Stmt.ops (labelTable 0 expanded))).flatten

/-- A host about to run a program from its first statement. -/
def State.loadHost (s : State) (ops : List HostOp) : State :=
  { s with host := { ops := ops, pc := 0, reads := [] } }

end Sys2Proof.Machine
end

