-- ==== Sys2Proof/Machine/HostText.lean ====
section
/-! DEFINITION. The host's program notation as text (30_encoding.md R59 to R62; log 18 for what those rules leave open). -/

namespace Sys2Proof.Machine

/-- A word of a program line: a run of plain characters, or one of `, [ ] = :`. -/
abbrev Token := List Char

/-! ## Tokens -/

/-- The characters that stand as tokens of their own. -/
def isMark (c : Char) : Bool := c == ',' || c == '[' || c == ']' || c == '=' || c == ':'

/-- Ends the token being read. -/
def flush (current : Token) (rest : List Token) : List Token := if current = [] then rest else current.reverse :: rest

/-- The tokens of a line, up to a `;` comment (R61); `current` is the token being read, reversed. -/
def tokensFrom (current : Token) : List Char → List Token
  | [] => flush current []
  | c :: rest =>
    if c = ';' then flush current []
    else if c.isWhitespace then flush current (tokensFrom [] rest)
    else if isMark c then flush current ([c] :: tokensFrom [] rest)
    else tokensFrom (c :: current) rest

/-- The lines of a text. -/
def linesFrom (current : List Char) : List Char → List (List Char)
  | [] => [current.reverse]
  | c :: rest => if c = '\n' then current.reverse :: linesFrom [] rest else linesFrom (c :: current) rest

/-! ## Numbers and hex strings -/

/-- The value of a digit in a base of at most 16. -/
def digitValue (base : Nat) (c : Char) : Option Nat :=
  let n := c.toNat
  let d := if 48 ≤ n ∧ n ≤ 57 then n - 48 else if 97 ≤ n ∧ n ≤ 102 then n - 87 else if 65 ≤ n ∧ n ≤ 70 then n - 55 else 16
  if d < base then some d else none

/-- The number written by digits, after `value`. -/
def digitsValue (base value : Nat) : List Char → Option Nat
  | [] => some value
  | c :: rest => match digitValue base c with
    | some d => digitsValue base (value * base + d) rest
    | none => none

/-- A number, decimal or `0x` hexadecimal (R60). -/
def numberOf : Token → Option Nat
  | [] => none
  | '0' :: 'x' :: c :: rest => digitsValue 16 0 (c :: rest)
  | tok => digitsValue 10 0 tok

/-- A `u64` (R60, R61). -/
def wordOf (tok : Token) : Option Word := do
  let n ← numberOf tok
  if n < 2 ^ 64 then some (BitVec.ofNat 64 n) else none

/-- The bytes of a hex string, two digits a byte, rising offsets (R59). -/
def hexBytes : Token → Option (List Byte)
  | [] => some []
  | [_] => none
  | a :: b :: rest =>
    match digitValue 16 a, digitValue 16 b, hexBytes rest with
    | some x, some y, some bytes => some (BitVec.ofNat 8 (16 * x + y) :: bytes)
    | _, _, _ => none

/-! ## Operands -/

/-- A register by name or number (R61). -/
def registerOf (tok : Token) : Option Nat :=
  if tok = "IN_LEN".toList then some 0
  else if tok = "GAS_BUDGET".toList then some 1
  else if tok = "CMD".toList then some 2
  else if tok = "STATUS".toList then some 3
  else if tok = "GAS_USED".toList then some 4
  else numberOf tok

/-- Words up to the closing bracket. -/
def wordsUntilClose : List Token → Option (List Word × List Token)
  | tok :: sep :: rest =>
    match wordOf tok with
    | none => none
    | some w =>
      if sep = [']'] then some ([w], rest)
      else if sep = [','] then (wordsUntilClose rest).map fun r => (w :: r.1, r.2)
      else none
  | _ => none

/-- `name=[w, w, …]` (R60). -/
def namedList (name : Token) : List Token → Option (List Word × List Token)
  | n :: eq :: open_ :: rest =>
    if n = name ∧ eq = ['='] ∧ open_ = ['['] then
      match rest with
      | [']'] :: after => some ([], after)
      | _ => wordsUntilClose rest
    else none
  | _ => none

/-- `name=w` (R60). -/
def namedWord (name : Token) : List Token → Option (Word × List Token)
  | n :: eq :: tok :: rest =>
    if n = name ∧ eq = ['='] then (wordOf tok).map fun w => (w, rest) else none
  | _ => none

/-- A comma. -/
def comma : List Token → Option (List Token)
  | tok :: rest => if tok = [','] then some rest else none
  | [] => none

/-- A list of exactly `n` words. -/
def exactly (n : Nat) (l : List Word) : Option (Vector Word n) :=
  if h : l.length = n then some ⟨l.toArray, by simp [h]⟩ else none

/-- The operands of the structured frame (R60); `final` is given by `BLAKE2F.FINAL` and `BLAKE2F.NF`, and by `f=` else. -/
def structuredFrame (final : Option Bool) (toks : List Token) : Option (FrameSyntax × List Token) := do
  let (rounds, toks) ← namedWord "rounds".toList toks
  if 2 ^ 32 ≤ rounds.toNat then none else
  let (h, toks) ← namedList ['h'] (← comma toks)
  let (m, toks) ← namedList ['m'] (← comma toks)
  let (t, toks) ← namedList ['t'] (← comma toks)
  let h ← exactly 8 h
  let t ← exactly 2 t
  match final with
  | some b => return (.blake2f (rounds.setWidth 32) h m t b, toks)
  | none =>
    let (f, toks) ← namedWord ['f'] (← comma toks)
    if f = 0 then return (.blake2f (rounds.setWidth 32) h m t false, toks)
    else if f = 1 then return (.blake2f (rounds.setWidth 32) h m t true, toks)
    else none

/-- A frame operand (R59, R60); `FRAME` with no hex string is the empty frame. -/
def frameOperand : List Token → Option (FrameSyntax × List Token)
  | [] => none
  | tok :: rest =>
    if tok = "FRAME".toList then
      match rest with
      | hex :: after =>
        if hex = [','] then some (.raw [], rest) else (hexBytes hex).map fun bytes => (.raw bytes, after)
      | [] => some (.raw [], [])
    else if tok = "BLAKE2F".toList then structuredFrame none rest
    else if tok = "BLAKE2F.FINAL".toList then structuredFrame (some true) rest
    else if tok = "BLAKE2F.NF".toList then structuredFrame (some false) rest
    else none

/-! ## Statements -/

/-- One statement from its tokens (R61, R62). A `WRBUF` line with no hex digits after its comma writes no bytes; R61 does not
say whether its hex string may be empty (DESIGN CHOICE: log 18). -/
def statement (toks : List Token) : Option Stmt :=
  match toks with
  | [] => none
  | op :: rest =>
    if op = "START".toList then if rest = [] then some .start else none
    else if op = "WAIT".toList then if rest = [] then some .wait else none
    else if op = "CALL".toList then
      match frameOperand rest with
      | some (frame, [[','], gas]) => (wordOf gas).map (.call frame)
      | _ => none
    else match rest with
      | [a] =>
        if op = "RD".toList then (registerOf a).map .rd
        else if op = "BR.ALWAYS".toList then some (.br .always a)
        else none
      | [a, b] =>
        if op = "BR.EQ".toList then (wordOf a).map fun v => .br (.eq v) b
        else if op = "BR.NE".toList then (wordOf a).map fun v => .br (.ne v) b
        else if op = "WRBUF".toList ∧ b = [','] then (numberOf a).map fun off => .wrbuf off []
        else none
      | [a, [','], b] =>
        if op = "WR".toList then do return .wr (← registerOf a) (← wordOf b)
        else if op = "WRBUF".toList then do return .wrbuf (← numberOf a) (← hexBytes b)
        else if op = "RDBUF".toList then do return .rdbuf (← numberOf a) (← numberOf b)
        else none
      | _ => none

/-- The statements of a line: an optional label, then at most one statement (R61). -/
def lineStatements : List Token → Option (List Stmt)
  | [] => some []
  | [name, [':']] => some [.label name]
  | name :: [':'] :: rest => (statement rest).map fun s => [.label name, s]
  | toks => (statement toks).map fun s => [s]

/-- A host program from its text, one statement a line (R61). -/
def parseProgram (text : List Char) : Option (List Stmt) :=
  ((linesFrom [] text).mapM fun line => lineStatements (tokensFrom [] line)).map List.flatten

/-- From text to the host's steps. -/
def assembleText (text : List Char) : Option (List HostOp) := (parseProgram text).bind assemble

end Sys2Proof.Machine
end

