-- ==== Sys2Proof/Machine/Instances.lean ====
section
/-! DEFINITION. Several instances of the block side by side (60_exceptions.md R131, 20_memory.md R43): each a state of its
own, nothing shared. -/

namespace Sys2Proof.Machine

/-- One step of instance `k` (DESIGN CHOICE for the form: log 22). -/
def stepInstance (k : Nat) (instances : List State) : Host.Outcome (List State) Fault Refusal :=
  match instances[k]? with
  | none => .next instances
  | some s =>
    match step s with
    | .next t => .next (instances.set k t)
    | .fault e => .fault e
    | .refused e => .refused e

end Sys2Proof.Machine
end

