-- ==== Sys2Proof/Safety.lean ====
section
/-! DEFINITION. What counts as a safe run, the invariant of the machine's states, and what a bus does under a binding, in the
terms the statements use. -/

namespace Sys2Proof.Machine

/-- A step goes on: neither a fault nor a refusal. -/
def StepSafe (s : State) : Prop := ∃ t, step s = .next t

/-- Every byte of the latched or host-written frame has a value. -/
def allBytes (sp : Space) (mem : Memory) : Prop := ∀ k, k < sp.size → (mem.read sp k).isSome = true

/-- What the host must have written before START (70_reset_and_hazards.md R142). -/
structure BootReady (s : State) : Prop where
  length_written : s.inLenHasValue = true
  budget_written : s.gasBudgetHasValue = true
  frame_written : s.inLen = 213#64 → allBytes .inBuf s.inBuf

/-- The launch premise (60_exceptions.md R130, 92 D14): the primitive is reachable and the host has booted the block. -/
def LaunchReady (s : State) : Prop := Config.reachable = true ∧ BootReady s

/-- The latched inputs have every value an operation can need (R141, R142). -/
structure LatchReady (s : State) : Prop where
  length_latched : s.lLenHasValue = true
  budget_latched : s.lGasHasValue = true
  frame_latched : s.lLen = 213#64 → allBytes .lBuf s.lBuf

/-- The result registers as one value. -/
def State.result (s : State) : Result := ⟨s.status, s.gasUsed, s.outBytes⟩

/-- `t` is `s` but for the host's side and the schedule: the block is untouched. -/
def SameBlock (s t : State) : Prop := t = { s with host := t.host, turns := t.turns }

/-- `t` is `s` but for what the host may write at any time (`IN_LEN`, `GAS_BUDGET`, `IN_BUF`), the host's side and the
schedule: the operation and its results are untouched (20_memory.md R42). -/
def SameOperation (s t : State) : Prop :=
  t = { s with
        inLen := t.inLen
        inLenHasValue := t.inLenHasValue
        gasBudget := t.gasBudget
        gasBudgetHasValue := t.gasBudgetHasValue
        inBuf := t.inBuf
        host := t.host
        turns := t.turns }

/-- The invariant of every state a run reaches, and of more. -/
structure Inv (s : State) : Prop where
  /-- The byte spaces are in canonical form. -/
  in_wf : s.inBuf.wf .inBuf = true
  out_wf : s.outBuf.wf .outBuf = true
  latch_wf : s.lBuf.wf .lBuf = true
  /-- `STATUS.CODE` shows `CTL` (10_state.md R15). -/
  status_idle : s.status = .idle ↔ s.ctl = .idle
  status_busy : s.status = .busy ↔ s.ctl.busy = true
  /-- Without a success the result registers are clear (20_memory.md R38, 60_exceptions.md R120). -/
  clear : s.status ≠ .success → s.gasUsed = 0 ∧ s.outBuf = []
  /-- Past DECODE the decoded-call registers hold the latched frame (10_state.md R20). -/
  decoded : s.ctl = .gascheck ∨ s.ctl = .init ∨ s.ctl = .round ∨ s.ctl = .final → s.decodeLatched = .ok s.currentCall
  /-- Past GASCHECK the budget covers the cost (42_controller.md R112). -/
  paid : s.ctl = .init ∨ s.ctl = .round ∨ s.ctl = .final → ¬ s.lGas < gasCost s.rounds
  /-- The round counter (R106). -/
  count_round : s.ctl = .round → s.rc.toNat < s.rounds.toNat
  count_final : s.ctl = .final → s.rc = s.rounds
  /-- The work vector is the seed after `RC` rounds (41_compression.md R85). -/
  work : s.ctl = .round ∨ s.ctl = .final → s.v = runRounds (initVector s.h s.t s.f) s.m s.rc.toNat
  /-- In DONE the result registers hold `run` of the latched inputs (42_controller.md R110, 20_memory.md R38). -/
  finished : s.ctl = .done → run s.lLen (s.lBuf.read .lBuf) s.lGas = some s.result

/-! ## What a bus does under a binding (00_scope.md R6; the form of the bus is the model's: log 9) -/

/-- Some lane of the cycle reaches the target. -/
def Reaches (b : Config.BusBinding) (c : Config.BusCycle) (target : Config.LaneTarget) : Prop :=
  ∃ i < c.lanes.length, b.lane c i = some target

/-- A number's eight bus bytes in an order, and that they stand for it (20_memory.md R34). -/
structure NumberBytes (order : Config.ByteOrder) : Prop where
  eight : ∀ w : Word, (numericBytes order w).length = 8
  number : ∀ w : Word, numericWord order (fun k => (numericBytes order w).getD k 0x00#8) = w
  /-- Little-endian: position `k` is bits `8k+7 .. 8k`. -/
  little : order = .little → ∀ (w : Word) (k : Nat), k < 8 →
    (numericBytes order w)[k]? = some (w.extractLsb' (8 * k) 8)
  /-- Big-endian: position `k` is byte `7 - k`. -/
  big : order = .big → ∀ (w : Word) (k : Nat), k < 8 →
    (numericBytes order w)[k]? = some (w.extractLsb' (56 - 8 * k) 8)

/-- The bytes the cycle carries for register `n` are bytes of the number `w`. -/
def CarriesBytesOf (b : Config.BusBinding) (c : Config.BusCycle) (n : Nat) (w : Word) : Prop :=
  ∀ (i : Nat) (x : Byte) (p : Fin 8), c.lanes[i]? = some x →
    b.lane c i = some (.registerByte n p) → (numericBytes b.numericOrder w)[p.val]? = some x

/-- Each byte of `w` is carried, or was staged, or is the one the binding takes for a missing byte: zero, or the byte the
register holds. -/
def WriteComplete (b : Config.BusBinding) (staged : Staged) (s : State) (c : Config.BusCycle) (n : Nat) (w : Word) : Prop :=
  ∀ p : Fin 8, Reaches b c (.registerByte n p) ∨
    staged.byte? n p = (numericBytes b.numericOrder w)[p.val]? ∨
    (staged.byte? n p = none ∧
      ((b.missing n = .zero ∧ (numericBytes b.numericOrder w)[p.val]? = some 0x00#8) ∨
       (b.missing n = .held ∧ ∃ old, s.regRead n = .ok old ∧
        (numericBytes b.numericOrder w)[p.val]? = (numericBytes b.numericOrder old)[p.val]?)))

/-- Some byte is neither carried nor staged, and the binding waits for it, or would take the byte of a register that has no
value. -/
def WriteWaits (b : Config.BusBinding) (staged : Staged) (s : State) (c : Config.BusCycle) (n : Nat) : Prop :=
  ∃ p : Fin 8, ¬ Reaches b c (.registerByte n p) ∧ staged.byte? n p = none ∧
    (b.missing n = .waits ∨ (b.missing n = .held ∧ ∃ e, s.regRead n = .error e))

/-- The register writes of a transfer of any width, whatever else its lanes reach (20_memory.md R37). -/
structure RegisterTransfers (b : Config.BusBinding) : Prop where
  /-- A complete write is made, with that number and no other, and leaves nothing of the register staged. -/
  complete : ∀ (c : Config.BusCycle) (n : Nat) (w : Word) (staged : Staged) (s : State),
    (∃ p, Reaches b c (.registerByte n p)) → CarriesBytesOf b c n w → WriteComplete b staged s c n w →
      (∀ w', .regWrite n w' ∈ (busWrite b staged s c).2 ↔ w' = w) ∧ ∀ p, (busWrite b staged s c).1.byte? n p = none
  /-- A write that waits is not made, and its bytes are staged. -/
  waits : ∀ (c : Config.BusCycle) (n : Nat) (w : Word) (staged : Staged) (s : State),
    CarriesBytesOf b c n w → WriteWaits b staged s c n →
      (∀ w', .regWrite n w' ∉ (busWrite b staged s c).2) ∧
      ∀ p, (Reaches b c (.registerByte n p) →
          (busWrite b staged s c).1.byte? n p = (numericBytes b.numericOrder w)[p.val]?) ∧
        (¬ Reaches b c (.registerByte n p) → (busWrite b staged s c).1.byte? n p = staged.byte? n p)
  /-- A register no lane reaches is not written, and what was staged of it stays. -/
  untouched : ∀ (c : Config.BusCycle) (n : Nat) (staged : Staged) (s : State),
    (∀ p, ¬ Reaches b c (.registerByte n p)) →
      (∀ w', .regWrite n w' ∉ (busWrite b staged s c).2) ∧
      ∀ p, (busWrite b staged s c).1.byte? n p = staged.byte? n p

/-- A write cycle whose transfer takes place. -/
def WritesNow (b : Config.BusBinding) (c : Config.BusCycle) : Prop :=
  b.assertsReset c = false ∧ takes b c = true ∧ c.isWrite = true

/-- What a write cycle does, whatever its lanes reach (20_memory.md R37, R42). -/
structure WriteCycles (b : Config.BusBinding) : Prop where
  /-- The accesses of a transfer in order: a byte space write for each lane that reaches one, by rising lane, then the register
  writes, each before those of registers whose lowest lane is higher. -/
  order : ∀ (c : Config.BusCycle) (staged : Staged) (s : State), ∃ writes : List (Nat × Word),
    (busWrite b staged s c).2 =
        ((List.range c.lanes.length).filterMap fun i =>
          match b.lane c i with
          | some (.inByte k) => some (.inWrite k (c.lanes.getD i 0x00#8))
          | some (.outByte k) => some (.outWrite k (c.lanes.getD i 0x00#8))
          | some (.registerByte _ _) => none
          | none => none) ++
        (writes.map fun r => .regWrite r.1 r.2) ∧
      writes.Pairwise fun r r' => ∃ i < c.lanes.length,
        (∃ p, b.lane c i = some (.registerByte r.1 p)) ∧
        ∀ j ≤ i, ∀ p, b.lane c j ≠ some (.registerByte r'.1 p)
  /-- The cycle makes the accesses one after the other; one that faults or is refused stops it. -/
  performs : ∀ (c : Config.BusCycle) (staged : Staged) (s : State), WritesNow b c →
    (∀ t, busAccesses s (busWrite b staged s c).2 = .next t →
      busCycle b ⟨s, staged⟩ c = .next ⟨t, (busWrite b staged s c).1⟩) ∧
    (∀ e, busAccesses s (busWrite b staged s c).2 = .fault e → busCycle b ⟨s, staged⟩ c = .fault e) ∧
    (∀ e, busAccesses s (busWrite b staged s c).2 = .refused e → busCycle b ⟨s, staged⟩ c = .refused e)
  /-- What a row of accesses does is what its front does, and then, if that goes on, what its back does. -/
  sequence : ∀ (s : State) (front back : List Access),
    (∀ t, busAccesses s front = .next t → busAccesses s (front ++ back) = busAccesses t back) ∧
    (∀ e, busAccesses s front = .fault e → busAccesses s (front ++ back) = .fault e) ∧
    (∀ e, busAccesses s front = .refused e → busAccesses s (front ++ back) = .refused e)
  /-- An access over the bus is what a host step at that access does, the step's turn and the host's moving on aside. -/
  hostStep : ∀ (s : State) (a : Access), s.nextTurn = .host → s.host.ops[s.host.pc]? = some (.access a) →
    step s = busAccesses { s with turns := s.turns.tail, host := { s.host with pc := s.host.pc + 1 } } [a]

/-- What a write cycle does whose lanes reach one register or nothing (42_controller.md R116, 30_encoding.md R56). -/
structure RegisterCycles (b : Config.BusBinding) : Prop where
  /-- The number is written; for `CMD` the command decoded from it is performed, and a word that is no command does
  nothing. -/
  complete : ∀ (c : Config.BusCycle) (n : Nat) (w : Word) (staged : Staged) (s : State), WritesNow b c →
    (∃ p, Reaches b c (.registerByte n p)) → (∀ target, Reaches b c target → ∃ p, target = .registerByte n p) →
    CarriesBytesOf b c n w → WriteComplete b staged s c n w →
      (n ≠ 2 → busCycle b ⟨s, staged⟩ c = .next ⟨s.regWrite w n, (busWrite b staged s c).1⟩) ∧
      (n = 2 → w.getLsbD 0 = false → busCycle b ⟨s, staged⟩ c = .next ⟨s, (busWrite b staged s c).1⟩) ∧
      (n = 2 → ∀ (i : Instr) (t : State), decode (.command w) = .ok i → exec i s = .next t →
        busCycle b ⟨s, staged⟩ c = .next ⟨t, (busWrite b staged s c).1⟩)
  /-- While the write waits the block stays as it is. -/
  waits : ∀ (c : Config.BusCycle) (n : Nat) (w : Word) (staged : Staged) (s : State), WritesNow b c →
    (∀ target, Reaches b c target → ∃ p, target = .registerByte n p) →
    CarriesBytesOf b c n w → WriteWaits b staged s c n →
      busCycle b ⟨s, staged⟩ c = .next ⟨s, (busWrite b staged s c).1⟩

/-- A lane that reaches a byte space reaches an offset inside it (20_memory.md R30). -/
def LaneInside (b : Config.BusBinding) (c : Config.BusCycle) (i : Nat) : Prop :=
  (∀ k, b.lane c i = some (.inByte k) → k < 213) ∧
    ∀ k, b.lane c i = some (.outByte k) → k < 64

/-- What a write cycle does to the byte spaces (42_controller.md R116, 20_memory.md R30). -/
structure ByteCycles (b : Config.BusBinding) : Prop where
  /-- With no lane at a register: each byte of `IN_BUF` a lane reaches takes the byte of the last such lane, `OUT_BUF` ignores
  what it is sent, and nothing else changes. The premise on `inBuf` is its canonical form. -/
  writes : ∀ (c : Config.BusCycle) (staged : Staged) (s : State), WritesNow b c → s.inBuf.wf .inBuf = true →
    (∀ n p, ¬ Reaches b c (.registerByte n p)) → (∀ i < c.lanes.length, LaneInside b c i) →
      ∃ t, busCycle b ⟨s, staged⟩ c = .next ⟨t, staged⟩ ∧ t = { s with inBuf := t.inBuf } ∧
        (∀ (i k : Nat) (x : Byte), c.lanes[i]? = some x → b.lane c i = some (.inByte k) →
          (∀ j < c.lanes.length, i < j → b.lane c j ≠ some (.inByte k)) →
            t.inBuf.read .inBuf k = some x) ∧
        ∀ k, ¬ Reaches b c (.inByte k) → t.inBuf.read .inBuf k = s.inBuf.read .inBuf k
  /-- The first lane that is outside a byte space refuses the cycle. -/
  refuses : ∀ (c : Config.BusCycle) (staged : Staged) (s : State) (i k : Nat), WritesNow b c → i < c.lanes.length →
    (∀ j < i, LaneInside b c j) →
      (b.lane c i = some (.inByte k) → 213 ≤ k →
        busCycle b ⟨s, staged⟩ c = .refused (.outsideByteSpace .inBuf k)) ∧
      (b.lane c i = some (.outByte k) → 64 ≤ k →
        busCycle b ⟨s, staged⟩ c = .refused (.outsideByteSpace .outBuf k))

/-- What a lane shows on a read of the block `s` (42_controller.md R115): a lane that reaches nothing shows nothing. -/
def LaneShows (order : Config.ByteOrder) (s : State) (shown : Option Byte) : Option Config.LaneTarget → Prop
  | none => shown = none
  | some (.registerByte n p) => ∃ w, s.regRead n = .ok w ∧ shown = (numericBytes order w)[p.val]?
  | some (.inByte k) => k < 213 ∧ ∃ x, s.inBuf.read .inBuf k = some x ∧ shown = some x
  | some (.outByte k) => k < 64 ∧ shown = s.outBuf.read .outBuf k

/-- The block as lane `i` of a read sees it: as it is when that lane is read, or, in an atomic read, as it is when the first
one is (20_memory.md R38). -/
def seenBy (b : Config.BusBinding) (seen : Nat → State) (c : Config.BusCycle) (i : Nat) : State :=
  if b.readsAtomically c = true then seen 0 else seen i

/-- What a read cycle that asserts no reset and whose transfer takes place answers (20_memory.md R37, R38;
70_reset_and_hazards.md R141). -/
structure ReadCycles (b : Config.BusBinding) : Prop where
  /-- Lane by lane, each from the block as that lane sees it. -/
  answers : ∀ (c : Config.BusCycle) (seen : Nat → State) (shown : Nat → Option Byte), b.assertsReset c = false →
    takes b c = true → c.isWrite = false →
    (∀ i < c.lanes.length,
      LaneShows b.numericOrder (seenBy b seen c i) (shown i) (b.lane c i)) →
      busRead b seen c = .next ((List.range c.lanes.length).map shown)
  /-- The first lane that cannot be read stops the read. -/
  stops : ∀ (c : Config.BusCycle) (seen : Nat → State) (i : Nat), b.assertsReset c = false → takes b c = true →
    c.isWrite = false → i < c.lanes.length →
    (∀ j < i, ∃ x, LaneShows b.numericOrder (seenBy b seen c j) x (b.lane c j)) →
      (∀ n p e, b.lane c i = some (.registerByte n p) → (seenBy b seen c i).regRead n = .error e →
        busRead b seen c = .fault e) ∧
      (∀ k, b.lane c i = some (.inByte k) → k < 213 →
        (seenBy b seen c i).inBuf.read .inBuf k = none → busRead b seen c = .fault (.noValue (.inByte k))) ∧
      (∀ k, b.lane c i = some (.inByte k) → 213 ≤ k →
        busRead b seen c = .refused (.outsideByteSpace .inBuf k)) ∧
      (∀ k, b.lane c i = some (.outByte k) → 64 ≤ k →
        busRead b seen c = .refused (.outsideByteSpace .outBuf k))

/-- The cycles that make no access (20_memory.md R39, 70_reset_and_hazards.md R140). -/
structure OtherCycles (b : Config.BusBinding) : Prop where
  /-- A cycle that asserts reset leaves the block as a reset event does, and nothing staged. -/
  reset : ∀ (c : Config.BusCycle) (staged : Staged) (s : State), b.assertsReset c = true →
    ∃ t, busCycle b ⟨s, staged⟩ c = .next ⟨t, []⟩ ∧ step { s with turns := .reset :: s.turns } = .next t
  /-- A read, and a transfer that does not take place, change nothing. -/
  nothing : ∀ (c : Config.BusCycle) (staged : Staged) (s : State), b.assertsReset c = false →
    takes b c = false ∨ c.isWrite = false → busCycle b ⟨s, staged⟩ c = .next ⟨s, staged⟩
  /-- A cycle that asserts reset, a transfer that does not take place, and a write answer no lane. -/
  silent : ∀ (c : Config.BusCycle) (seen : Nat → State), b.assertsReset c = true ∨ takes b c = false ∨ c.isWrite = true →
    busRead b seen c = .next []

end Sys2Proof.Machine
end

