-- ==== Sys2Proof/Certificates/Slice0/Obligations.lean ====
section
/-! DEFINITION. The statements for the provers. Each docstring names the rule of spec/ it formalises. -/

open Sys2Proof Sys2Proof.Machine

/-! ## Encoding and decoding -/

/-- 30_encoding.md R50 to R53, R56, R60: every well-formed instruction decodes back from its encoding, with every operand at
every value. -/
def Obligations.DecodeAfterEncode : Prop :=
  ∀ i : Instr, i.wellFormed = true → decode (encode i) = .ok i

/-- 40_decoder.md R72: a legal result determines the frame, all 213 bytes of it. That a decoded START determines its whole
command word too is the model's choice and no rule of the spec: the decoder keeps the ignored bits 63..1 as an operand
(log 20). -/
def Obligations.EncodeAfterDecode : Prop :=
  (∀ (w : Word) (i : Instr), decode (.command w) = .ok i → encode i = .command w) ∧
  (∀ (len : Word) (bytes : List Byte) (i : Instr), bytes.length = 213 → decode (.frame len bytes) = .ok i →
    encode i = .frame len bytes)

/-- 30_encoding.md R54, R63: a frame decodes exactly when it is legal, and then to a BLAKE2F. -/
def Obligations.LegalFramesAreExactlyThese : Prop :=
  ∀ (len : Word) (byte : Nat → Byte),
    (∃ n h m t f, decodeFrame len (fun k => some (byte k)) = .ok (.blake2f n h m t f)) ↔
      len = 213#64 ∧ (byte 212 = 0x00#8 ∨ byte 212 = 0x01#8)

/-- 40_decoder.md R66: with any other length nothing is read, so even a buffer without values is rejected for its length. -/
def Obligations.WrongLengthReadsNoByte : Prop :=
  ∀ (len : Word) (byte? : Nat → Option Byte), len ≠ 213#64 → decodeFrame len byte? = .error .lengthNot213

/-- 30_encoding.md R53, 40_decoder.md R67: the whole flag byte is tested, whatever the other bytes are. -/
def Obligations.FlagByteAloneDecides : Prop :=
  ∀ (byte? : Nat → Option Byte) (b : Byte), byte? 212 = some b → b ≠ 0x00#8 → b ≠ 0x01#8 →
    decodeFrame 213#64 byte? = .error .flagNotBool

/-- 30_encoding.md R50: which frame byte holds which bits of which field. -/
def Obligations.FieldBitPositions : Prop :=
  ∀ byte : Nat → Byte, byte 212 = 0x00#8 ∨ byte 212 = 0x01#8 →
    ∃ n h m t, decodeFrame 213#64 (fun k => some (byte k)) = .ok (.blake2f n h m t (byte 212)) ∧
      (∀ k, k < 4 → n.extractLsb' (24 - 8 * k) 8 = byte k) ∧
      (∀ (i : Fin 8) (k : Nat), k < 8 → h[i].extractLsb' (8 * k) 8 = byte (4 + 8 * i.val + k)) ∧
      (∀ (i : Fin 16) (k : Nat), k < 8 → m[i].extractLsb' (8 * k) 8 = byte (68 + 8 * i.val + k)) ∧
      (∀ (i : Fin 2) (k : Nat), k < 8 → t[i].extractLsb' (8 * k) 8 = byte (196 + 8 * i.val + k))

/-- 30_encoding.md R56: a command word is START exactly when bit 0 is 1. R56 ignores bits 63..1 and R63 lists no operand of
START; that the decoded START holds them as an operand, and so encodes back to the same word, is the model's choice
(log 20). -/
def Obligations.CommandWordIsStartByBitZero : Prop :=
  ∀ w : Word,
    (w.getLsbD 0 = true → ∃ ignored, decode (.command w) = .ok (.start ignored) ∧ encode (.start ignored) = .command w) ∧
    (w.getLsbD 0 = false → decode (.command w) = .error .notStart)

/-- Words written out from the formats of 30_encoding.md R50 to R56: a command word with ignored bits, and a frame with
`rounds` = 12, `h[0]` = 0x6a09e667f2bdc948, `f` = 1 and zeros elsewhere (the examples of R51 and R52). -/
def Obligations.SampleWordsDecode : Prop :=
  decode (.command 0x0000000000000003) = .ok (.start 1) ∧
  decode (.command 0xfffffffffffffffe) = .error .notStart ∧
  decode (.frame 213 ([0x00, 0x00, 0x00, 0x0c, 0x48, 0xc9, 0xbd, 0xf2, 0x67, 0xe6, 0x09, 0x6a] ++ List.replicate 200 0x00 ++ [0x01])) =
    .ok (.blake2f 12 #v[0x6a09e667f2bdc948, 0, 0, 0, 0, 0, 0, 0] (Vector.replicate 16 0) (Vector.replicate 2 0) 0x01) ∧
  decode (.frame 213 (List.replicate 212 0xff ++ [0x02])) = .error .flagNotBool

/-- 30_encoding.md R60: the structured syntax with up to sixteen message words assembles to the legal frame whose missing
words are 0. -/
def Obligations.StructuredFrameAssembles : Prop :=
  ∀ (n : Word32) (h : Vector Word 8) (m : List Word) (t : Vector Word 2) (final : Bool), m.length ≤ 16 →
    ∃ bytes, (FrameSyntax.blake2f n h m t final).bytes = some bytes ∧ bytes.length = 213 ∧
      ∃ m', decode (.frame 213 bytes) = .ok (.blake2f n h m' t (if final then 0x01#8 else 0x00#8)) ∧
        ∀ i : Fin 16, m'[i] = (m[i.val]?).getD 0

/-! ## The compression datapath -/

/-- 41_compression.md R75: bit `k` of `rotr64(x, n)` is bit `(k + n) mod 64` of `x`. -/
def Obligations.RotationMovesBits : Prop :=
  ∀ (x : Word) (n k : Nat), 0 < n → n < 64 → k < 64 → (rotr64 x n).getLsbD k = x.getLsbD ((k + n) % 64)

/-- 41_compression.md R79, R80: on four distinct indices `G` leaves the values of its eight-step chain and changes no other
word. -/
def Obligations.MixFollowsItsEightSteps : Prop :=
  ∀ (v : Vector Word 16) (a b c d : Fin 16) (x y : Word), [a, b, c, d].Nodup →
    let a1 := v[a] + v[b] + x
    let d1 := rotr64 (v[d] ^^^ a1) 32
    let c1 := v[c] + d1
    let b1 := rotr64 (v[b] ^^^ c1) 24
    let a2 := a1 + b1 + y
    let d2 := rotr64 (d1 ^^^ a2) 16
    let c2 := c1 + d2
    let b2 := rotr64 (b1 ^^^ c2) 63
    (mixG v a b c d x y)[a] = a2 ∧ (mixG v a b c d x y)[b] = b2 ∧ (mixG v a b c d x y)[c] = c2 ∧
      (mixG v a b c d x y)[d] = d2 ∧ ∀ j : Fin 16, j ∉ [a, b, c, d] → (mixG v a b c d x y)[j] = v[j]

/-- 41_compression.md R81, R82: the round is the eight applications of the table, in order. -/
def Obligations.RoundFollowsTheTable : Prop :=
  ∀ (v m : Vector Word 16) (r : Word32), Machine.round v m r = [0, 1, 2, 3, 4, 5, 6, 7].foldl (applyG m r) v

/-- 41_compression.md R90: the four column applications may run in any order, and so may the four diagonal ones. -/
def Obligations.HalfRoundsRunInAnyOrder : Prop :=
  ∀ (v m : Vector Word 16) (r : Word32) (columns diagonals : List (Fin 8)),
    columns.Perm [0, 1, 2, 3] → diagonals.Perm [4, 5, 6, 7] →
      diagonals.foldl (applyG m r) (columns.foldl (applyG m r) v) = Machine.round v m r

/-- 41_compression.md R88: rounds `r` and `r + 10` use the same row. -/
def Obligations.ScheduleRepeatsEveryTenRounds : Prop :=
  ∀ (v m : Vector Word 16) (r : Word32), r.toNat + 10 < 2 ^ 32 → Machine.round v m (r + 10) = Machine.round v m r

/-- 41_compression.md R86, R78(b), R81: a round is eight applications of `G`, application `j` of round `r` reads the message
words at entries `2j` and `2j + 1` of the round's row, and the sixteen entries so used are the sixteen word numbers, each
once. The values of `SIGMA` are the ones the spec supplies from general knowledge (PRESUMED by the spec itself: log 13). -/
def Obligations.RoundReadsEachMessageWordOnce : Prop :=
  ∀ r : Word32,
    (∀ v m : Vector Word 16, Machine.round v m r = (List.finRange 8).foldl (applyG m r) v) ∧
    (∀ (v m : Vector Word 16) (j : Fin 8), applyG m r v j =
      mixG v quads[j].a quads[j].b quads[j].c quads[j].d m[(sigmaRow r)[2 * j.val]] m[(sigmaRow r)[2 * j.val + 1]]) ∧
    ((List.finRange 8).flatMap fun j => [(sigmaRow r)[2 * j.val], (sigmaRow r)[2 * j.val + 1]]).Perm (List.finRange 16)

/-- 41_compression.md R83, R93, R94: the seed, word by word. -/
def Obligations.SeedWordByWord : Prop :=
  ∀ (h : Vector Word 8) (t : Vector Word 2) (final : Bool),
    (∀ i : Fin 8, (initVector h t final)[i.val] = h[i]) ∧
    (∀ i : Fin 4, (initVector h t final)[8 + i.val] = iv[i.val]) ∧
    (initVector h t final)[12] = iv[4] ^^^ t[0] ∧ (initVector h t final)[13] = iv[5] ^^^ t[1] ∧
    (initVector h t final)[14] = (if final then ~~~ iv[6] else iv[6]) ∧ (initVector h t final)[15] = iv[7]

/-- 30_encoding.md R55, 41_compression.md R84: byte `8i + k` of the output holds bits `8k+7 .. 8k` of
`h[i] ^ V[i] ^ V[i+8]`, and there are 64 bytes. -/
def Obligations.OutputByteLayout : Prop :=
  ∀ (h : Vector Word 8) (v : Vector Word 16),
    (serialise (Machine.fold h v)).length = 64 ∧
    ∀ (i : Fin 8) (k : Nat), k < 8 →
      (serialise (Machine.fold h v))[8 * i.val + k]? =
        some ((h[i] ^^^ v[i.val] ^^^ v[i.val + 8]).extractLsb' (8 * k) 8)

/-- 41_compression.md R87: the closed form of a zero-round call. -/
def Obligations.ZeroRoundsGiveTheAdjustedSeed : Prop :=
  ∀ (h : Vector Word 8) (m : Vector Word 16) (t : Vector Word 2) (final : Bool),
    compress h m t final 0 =
      #v[iv[0], iv[1], iv[2], iv[3], iv[4] ^^^ t[0], iv[5] ^^^ t[1], if final then ~~~ iv[6] else iv[6], iv[7]]

/-- 41_compression.md R95: the 32-bit-half forms equal the 64-bit operations. -/
def Obligations.HalvesEqualWholeWords : Prop :=
  ∀ x y : Word,
    ofHalves (toHalves x) = x ∧
    ofHalves (halvesRotr32 (toHalves x)) = rotr64 x 32 ∧ ofHalves (halvesRotr24 (toHalves x)) = rotr64 x 24 ∧
    ofHalves (halvesRotr16 (toHalves x)) = rotr64 x 16 ∧ ofHalves (halvesRotr63 (toHalves x)) = rotr64 x 63 ∧
    ofHalves (halvesAdd (toHalves x) (toHalves y)) = x + y

/-! ## START -/

/-- 42_controller.md R100: START in IDLE or DONE completes, whatever the ignored bits: it latches the inputs, a register or
byte without a value staying so, clears the results and enters DECODE. -/
def Obligations.StartLatchesAndClears : Prop :=
  ∀ (ignored : BitVec 63) (s : State), s.ctl = .idle ∨ s.ctl = .done →
    ∃ t, exec (.start ignored) s = .next t ∧
      t.lLen = s.inLen ∧ t.lLenHasValue = s.inLenHasValue ∧ t.lGas = s.gasBudget ∧ t.lGasHasValue = s.gasBudgetHasValue ∧
      (∀ k, k < 213 → t.lBuf.read .lBuf k = s.inBuf.read .inBuf k) ∧
      (∀ k, k < 64 → t.outBuf.read .outBuf k = some 0x00#8) ∧ t.gasUsed = 0 ∧ t.status = .busy ∧ t.ctl = .decode

/-- 42_controller.md R101: START while an operation runs completes with no effect. -/
def Obligations.StartWhileBusyIsDropped : Prop :=
  ∀ (ignored : BitVec 63) (s : State),
    s.ctl = .decode ∨ s.ctl = .gascheck ∨ s.ctl = .init ∨ s.ctl = .round ∨ s.ctl = .final →
      exec (.start ignored) s = .next s

/-- The frame of START (42_controller.md R100): the host's inputs, the decoded-call registers, `V`, `RC`, the host's side
and the schedule stay; every byte of `IN_BUF` reads as before; `OUT_BUF` and `L_BUF` change only when START is accepted. -/
def Obligations.StartLeavesTheRest : Prop :=
  ∀ (ignored : BitVec 63) (s t : State), exec (.start ignored) s = .next t →
    t.inLen = s.inLen ∧ t.inLenHasValue = s.inLenHasValue ∧ t.gasBudget = s.gasBudget ∧
    t.gasBudgetHasValue = s.gasBudgetHasValue ∧ (∀ k, t.inBuf.read .inBuf k = s.inBuf.read .inBuf k) ∧
    t.rounds = s.rounds ∧ t.h = s.h ∧ t.m = s.m ∧ t.t = s.t ∧ t.f = s.f ∧ t.v = s.v ∧ t.rc = s.rc ∧
    t.host = s.host ∧ t.turns = s.turns ∧
    (s.ctl.busy = true → t.lLen = s.lLen ∧ t.lLenHasValue = s.lLenHasValue ∧ t.lGas = s.lGas ∧
      t.lGasHasValue = s.lGasHasValue ∧ t.gasUsed = s.gasUsed ∧ t.status = s.status ∧ t.ctl = s.ctl ∧
      (∀ k, t.lBuf.read .lBuf k = s.lBuf.read .lBuf k) ∧ ∀ k, t.outBuf.read .outBuf k = s.outBuf.read .outBuf k)

/-! ## BLAKE2F, step by step -/

/-- 40_decoder.md R70 and 10_state.md R20: in DECODE a legal BLAKE2F completes its step: its operands stand in the
decoded-call registers, `F` is 1 exactly for flag byte 0x01, and `CTL` is GASCHECK; nothing else changes. -/
def Obligations.DecodeStepFillsTheCall : Prop :=
  ∀ (n : Word32) (h : Vector Word 8) (m : Vector Word 16) (t : Vector Word 2) (f : Byte) (s : State),
    s.ctl = .decode → (Instr.blake2f n h m t f).wellFormed = true →
      exec (.blake2f n h m t f) s =
        .next { s with rounds := n, h := h, m := m, t := t, f := decide (f = 0x01#8), ctl := .gascheck }

/-- 42_controller.md R102, R103 and 60_exceptions.md R122, R126: the gas gate compares the latched budget with `ROUNDS` as
unsigned numbers; too small a budget ends the operation with OUT_OF_GAS, any other passes to INIT; nothing else changes. -/
def Obligations.GasGateComparesBudgetWithRounds : Prop :=
  ∀ (n : Word32) (h : Vector Word 8) (m : Vector Word 16) (t : Vector Word 2) (f : Byte) (s : State),
    s.ctl = .gascheck → s.lGasHasValue = true →
      exec (.blake2f n h m t f) s =
        .next (if s.lGas.toNat < s.rounds.toNat then { s with status := .outOfGas, ctl := .done }
          else { s with ctl := .init })

/-- 42_controller.md R104: INIT completes: the seed, `RC` = 0, and FINAL at once for zero rounds. -/
def Obligations.InitStepSeedsAndBranches : Prop :=
  ∀ (n : Word32) (h : Vector Word 8) (m : Vector Word 16) (t : Vector Word 2) (f : Byte) (s : State), s.ctl = .init →
    exec (.blake2f n h m t f) s =
      .next { s with v := initVector s.h s.t s.f, rc := 0, ctl := if s.rounds = 0 then .final else .round }

/-- 42_controller.md R105: ROUND completes: one round with row `RC mod 10`, `RC + 1`, and FINAL after the last round. -/
def Obligations.RoundStepMixesOnce : Prop :=
  ∀ (n : Word32) (h : Vector Word 8) (m : Vector Word 16) (t : Vector Word 2) (f : Byte) (s : State),
    s.ctl = .round → s.rc.toNat < s.rounds.toNat →
      ∃ u, exec (.blake2f n h m t f) s = .next u ∧ u.v = Machine.round s.v s.m s.rc ∧ u.rc.toNat = s.rc.toNat + 1 ∧
        (u.rc = s.rounds → u.ctl = .final) ∧ (u.rc ≠ s.rounds → u.ctl = .round) ∧
        u = { s with v := u.v, rc := u.rc, ctl := u.ctl }

/-- 42_controller.md R107, 30_encoding.md R55: FINAL completes: the 64 output bytes, the gas used, SUCCESS and DONE, and
nothing else changes. The premise is the canonical form of `OUT_BUF`, which every reachable state has (`InvariantHoldsAtReset`,
`EveryStepKeepsTheInvariant`). -/
def Obligations.FinalStepWritesTheResult : Prop :=
  ∀ (n : Word32) (h : Vector Word 8) (m : Vector Word 16) (t : Vector Word 2) (f : Byte) (s : State),
    s.ctl = .final → s.outBuf.wf .outBuf = true →
      ∃ u, exec (.blake2f n h m t f) s = .next u ∧
        (∀ (i : Fin 8) (k : Nat), k < 8 →
          u.outBuf.read .outBuf (8 * i.val + k) =
            some ((s.h[i] ^^^ s.v[i.val] ^^^ s.v[i.val + 8]).extractLsb' (8 * k) 8)) ∧
        u.gasUsed.toNat = s.rounds.toNat ∧ u.status = .success ∧ u.ctl = .done ∧
        u = { s with outBuf := u.outBuf, gasUsed := u.gasUsed, status := u.status, ctl := u.ctl }

/-- 42_controller.md R108: in IDLE and DONE the controller has no step: BLAKE2F does nothing there, and a controller turn
only uses up the turn. -/
def Obligations.WaitingControllerDoesNothing : Prop :=
  (∀ (n : Word32) (h : Vector Word 8) (m : Vector Word 16) (t : Vector Word 2) (f : Byte) (s : State),
    s.ctl = .idle ∨ s.ctl = .done → exec (.blake2f n h m t f) s = .next s) ∧
  (∀ s : State, s.ctl = .idle ∨ s.ctl = .done → s.nextTurn = .controller →
    step s = .next { s with turns := s.turns.tail })

/-- The frame of BLAKE2F (10_state.md R29): the inputs, the latches, the host's side and the schedule never change;
the decoded-call registers change only in DECODE, `V` and `RC` only in INIT and ROUND, `GAS_USED` and the bytes of `OUT_BUF`
only in FINAL, `STATUS` only in GASCHECK and FINAL. -/
def Obligations.Blake2fLeavesTheRest : Prop :=
  ∀ (n : Word32) (h : Vector Word 8) (m : Vector Word 16) (t : Vector Word 2) (f : Byte) (s u : State),
    exec (.blake2f n h m t f) s = .next u →
      u.inLen = s.inLen ∧ u.inLenHasValue = s.inLenHasValue ∧ u.gasBudget = s.gasBudget ∧
      u.gasBudgetHasValue = s.gasBudgetHasValue ∧ u.lLen = s.lLen ∧ u.lLenHasValue = s.lLenHasValue ∧
      u.lGas = s.lGas ∧ u.lGasHasValue = s.lGasHasValue ∧ u.host = s.host ∧ u.turns = s.turns ∧
      (∀ k, u.inBuf.read .inBuf k = s.inBuf.read .inBuf k) ∧ (∀ k, u.lBuf.read .lBuf k = s.lBuf.read .lBuf k) ∧
      (s.ctl ≠ .decode → u.rounds = s.rounds ∧ u.h = s.h ∧ u.m = s.m ∧ u.t = s.t ∧ u.f = s.f) ∧
      (s.ctl ≠ .init → s.ctl ≠ .round → u.v = s.v ∧ u.rc = s.rc) ∧
      (s.ctl ≠ .final → u.gasUsed = s.gasUsed ∧ ∀ k, u.outBuf.read .outBuf k = s.outBuf.read .outBuf k) ∧
      (s.ctl ≠ .gascheck → s.ctl ≠ .final → u.status = s.status) ∧
      (∀ k, 64 ≤ k → s.outBuf.wf .outBuf = true → u.outBuf.read .outBuf k = s.outBuf.read .outBuf k)

/-! ## Errors and registers without a value -/

/-- 60_exceptions.md R121, R126, R125(b); 40_decoder.md R70: an illegal latched frame ends the operation in the DECODE step
with OUT_OF_RANGE, whatever the budget; only `STATUS`, `CTL` and the schedule change. -/
def Obligations.IllegalFrameRaisesOutOfRange : Prop :=
  ∀ s : State, s.nextTurn = .controller → s.ctl = .decode → s.lLenHasValue = true →
    s.lLen ≠ 213#64 ∨ (∃ b, s.lBuf.read .lBuf 212 = some b ∧ b ≠ 0x00#8 ∧ b ≠ 0x01#8) →
      step s = .next { s with status := .outOfRange, ctl := .done, turns := s.turns.tail }

/-- 70_reset_and_hazards.md R141, R142: the DECODE step faults on a length without a value, on a flag byte without a value,
and, for a legal flag byte, on the lowest other frame byte without a value; the GASCHECK step faults on a budget without a
value. Which of several bytes a fault names is the model's choice (log 14). -/
def Obligations.StepFaultsOnMissingValues : Prop :=
  ∀ s : State, s.nextTurn = .controller →
    (s.ctl = .decode → s.lLenHasValue = false → step s = .fault (.noValue .lLen)) ∧
    (s.ctl = .decode → s.lLenHasValue = true → s.lLen = 213#64 → s.lBuf.read .lBuf 212 = none →
      step s = .fault (.noValue (.lByte 212))) ∧
    (∀ (f : Byte) (k : Nat), s.ctl = .decode → s.lLenHasValue = true → s.lLen = 213#64 →
      s.lBuf.read .lBuf 212 = some f → f = 0x00#8 ∨ f = 0x01#8 → k < 212 → s.lBuf.read .lBuf k = none →
      (∀ j, j < k → s.lBuf.read .lBuf j ≠ none) → step s = .fault (.noValue (.lByte k))) ∧
    (s.ctl = .gascheck → s.lGasHasValue = false → step s = .fault (.noValue .lGas))

/-- 42_controller.md R109, 60_exceptions.md R123: with its inputs latched, the controller always has a step and that step
neither faults nor refuses, and the latches stay ready. -/
def Obligations.ReadyControllerAlwaysSteps : Prop :=
  ∀ s : State, s.nextTurn = .controller → LatchReady s → ∃ t, step s = .next t ∧ LatchReady t

/-! ## The step -/

/-- A step runs the decoded instruction (30_encoding.md R63, 40_decoder.md R70): on the controller's turn in DECODE the
instruction the input decoder reads from the latches, in the later states the one in the decoded-call registers; on the
host's turn, at a write to `CMD`, the instruction the command decoder reads. Around `exec` the step only uses up the turn and,
for the host, moves the host to its next statement. -/
def Obligations.StepRunsTheDecodedInstruction : Prop :=
  (∀ (s : State) (i : Instr), s.nextTurn = .controller → s.ctl = .decode → s.lLenHasValue = true →
    decodeFrame s.lLen (s.lBuf.read .lBuf) = .ok i → step s = exec i { s with turns := s.turns.tail }) ∧
  (∀ s : State, s.nextTurn = .controller → s.ctl = .gascheck ∨ s.ctl = .init ∨ s.ctl = .round ∨ s.ctl = .final →
    step s = exec (.blake2f s.rounds s.h s.m s.t (if s.f then 0x01#8 else 0x00#8)) { s with turns := s.turns.tail }) ∧
  (∀ (s : State) (w : Word) (i : Instr), s.nextTurn = .host → s.host.ops[s.host.pc]? = some (.access (.regWrite 2 w)) →
    decode (.command w) = .ok i →
      step s = exec i { s with turns := s.turns.tail, host := { s.host with pc := s.host.pc + 1 } })

/-- 10_state.md R14, 30_encoding.md R56: a write to `CMD` with bit 0 clear has no effect on the block. -/
def Obligations.CommandWithoutStartDoesNothing : Prop :=
  ∀ (s : State) (w : Word), s.nextTurn = .host → s.host.ops[s.host.pc]? = some (.access (.regWrite 2 w)) →
    w.getLsbD 0 = false →
      step s = .next { s with turns := s.turns.tail, host := { s.host with pc := s.host.pc + 1 } }

/-- 10_state.md R23, R25, 20_memory.md R41, 42_controller.md R112: every change of `CTL` is one of the controller's edges, a
START or a reset; INIT is entered only from a GASCHECK whose budget covers the cost. -/
def Obligations.ControllerMovesOnlyAlongItsEdges : Prop :=
  ∀ s t : State, step s = .next t → t.ctl ≠ s.ctl →
    (s.nextTurn = .reset ∧ t.ctl = .idle) ∨
    (s.nextTurn = .host ∧ (s.ctl = .idle ∨ s.ctl = .done) ∧ t.ctl = .decode) ∨
    (s.nextTurn = .controller ∧
      ((s.ctl = .decode ∧ t.ctl = .gascheck) ∨
       (s.ctl = .decode ∧ t.ctl = .done ∧ t.status = .outOfRange) ∨
       (s.ctl = .gascheck ∧ t.ctl = .init ∧ s.rounds.toNat ≤ s.lGas.toNat) ∨
       (s.ctl = .gascheck ∧ t.ctl = .done ∧ t.status = .outOfGas) ∨
       (s.ctl = .init ∧ t.ctl = .round ∧ s.rounds ≠ 0) ∨
       (s.ctl = .init ∧ t.ctl = .final ∧ s.rounds = 0) ∨
       (s.ctl = .round ∧ t.ctl = .final ∧ t.rc = s.rounds) ∨
       (s.ctl = .final ∧ t.ctl = .done ∧ t.status = .success)))

/-- 42_controller.md R113: no host action stops a running operation; only a reset can. -/
def Obligations.OnlyResetStopsAnOperation : Prop :=
  ∀ s t : State, s.ctl.busy = true → step s = .next t → s.nextTurn ≠ .reset →
    t.ctl.busy = true ∨ (t.ctl = .done ∧ t.status.terminal = true)

/-- 20_memory.md R42, 70_reset_and_hazards.md R144, R145: while an operation runs, no host step touches the operation or its
results. -/
def Obligations.HostCannotDisturbAnOperation : Prop :=
  ∀ s t : State, s.ctl.busy = true → s.nextTurn = .host → step s = .next t → SameOperation s t

/-- 20_memory.md R42(d): the block never writes the host's input registers; a controller turn leaves them and the host's
side as they are. -/
def Obligations.BlockNeverWritesTheInputs : Prop :=
  ∀ s t : State, s.nextTurn = .controller → step s = .next t →
    t.inLen = s.inLen ∧ t.inLenHasValue = s.inLenHasValue ∧ t.gasBudget = s.gasBudget ∧
    t.gasBudgetHasValue = s.gasBudgetHasValue ∧ (∀ k, t.inBuf.read .inBuf k = s.inBuf.read .inBuf k) ∧ t.host = s.host

/-- 42_controller.md R108, 20_memory.md R42(c): in DONE the result registers stay until the next START or a reset. -/
def Obligations.ResultsStayInDone : Prop :=
  ∀ s t : State, s.ctl = .done → step s = .next t → t.ctl = .done → t.result = s.result

/-- 10_state.md R18: only START, FINAL and a reset change a byte of `OUT_BUF`. -/
def Obligations.OutputChangesOnlyAtStartFinalReset : Prop :=
  ∀ s t : State, step s = .next t → (∃ k, t.outBuf.read .outBuf k ≠ s.outBuf.read .outBuf k) →
    (s.nextTurn = .host ∧ s.ctl.busy = false ∧ t.ctl = .decode) ∨
    (s.nextTurn = .controller ∧ s.ctl = .final) ∨ s.nextTurn = .reset

/-! ## Reset -/

/-- 70_reset_and_hazards.md R140: a reset in any state leaves IDLE, code 0, no gas used, an all-zero output and no value in
any input register, input byte or latch; the host and the rest of the schedule stay. The internal registers R140 leaves
without a value are not spoken of (log 4). -/
def Obligations.ResetFromAnyState : Prop :=
  ∀ s : State, s.nextTurn = .reset →
    ∃ t, step s = .next t ∧ t.ctl = .idle ∧ t.status = .idle ∧ t.gasUsed = 0 ∧
      (∀ k, k < 64 → t.outBuf.read .outBuf k = some 0x00#8) ∧
      t.inLenHasValue = false ∧ t.gasBudgetHasValue = false ∧ t.lLenHasValue = false ∧ t.lGasHasValue = false ∧
      (∀ k, t.inBuf.read .inBuf k = none) ∧ (∀ k, t.lBuf.read .lBuf k = none) ∧
      t.host = s.host ∧ t.turns = s.turns.tail

/-- 70_reset_and_hazards.md R140: the same of the machine's state after reset. -/
def Obligations.ResetStateValues : Prop :=
  State.reset.ctl = .idle ∧ State.reset.status = .idle ∧ State.reset.statusWord = 0 ∧ State.reset.gasUsed = 0 ∧
  State.reset.outBytes = List.replicate 64 0x00#8 ∧
  State.reset.inLenHasValue = false ∧ State.reset.gasBudgetHasValue = false ∧ State.reset.lLenHasValue = false ∧
  State.reset.lGasHasValue = false ∧ ∀ k, State.reset.inBuf.read .inBuf k = none ∧ State.reset.lBuf.read .lBuf k = none

/-! ## The host's accesses -/

/-- 42_controller.md R115, 10_state.md R11 to R16: what a host read of each register number answers, and that a host's step
at a read of a register records that answer and nothing else, or faults where the register has no value
(70_reset_and_hazards.md R141). -/
def Obligations.RegisterReadTable : Prop :=
  ∀ s : State,
    (s.inLenHasValue = true → s.regRead 0 = .ok s.inLen) ∧
    (s.inLenHasValue = false → s.regRead 0 = .error (.noValue .inLen)) ∧
    (s.gasBudgetHasValue = true → s.regRead 1 = .ok s.gasBudget) ∧
    (s.gasBudgetHasValue = false → s.regRead 1 = .error (.noValue .gasBudget)) ∧
    s.regRead 2 = .ok 0 ∧
    s.regRead 3 = .ok (match s.status with | .idle => 0 | .busy => 1 | .success => 2 | .outOfRange => 3 | .outOfGas => 4) ∧
    s.regRead 4 = .ok s.gasUsed ∧ (∀ n, 5 ≤ n → s.regRead n = .ok 0) ∧
    ∀ n, s.nextTurn = .host → s.host.ops[s.host.pc]? = some (.access (.regRead n)) →
      (∀ w, s.regRead n = .ok w →
        step s = .next { s with
          turns := s.turns.tail
          host := { s.host with pc := s.host.pc + 1, reads := w :: s.host.reads } }) ∧
      (∀ e, s.regRead n = .error e → step s = .fault e)

/-- 20_memory.md R39, 42_controller.md R115: a host read that goes on leaves the block as it was, in whatever state, and
records one value, the one that R115 gives for what is read. -/
def Obligations.HostReadsChangeNothing : Prop :=
  ∀ (s t : State) (a : Access), s.nextTurn = .host → s.host.ops[s.host.pc]? = some (.access a) →
    (∃ n, a = .regRead n) ∨ (∃ k, a = .inRead k) ∨ (∃ k, a = .outRead k) →
      step s = .next t → SameBlock s t ∧ t.host.pc = s.host.pc + 1 ∧ t.host.ops = s.host.ops ∧
        ∃ w, t.host.reads = w :: s.host.reads ∧
          (∀ n, a = .regRead n → s.regRead n = .ok w) ∧
          (∀ k, a = .inRead k → (s.inBuf.read .inBuf k).map (·.setWidth 64) = some w) ∧
          (∀ k, a = .outRead k → (s.outBuf.read .outBuf k).map (·.setWidth 64) = some w)

/-- 42_controller.md R115, 20_memory.md R34: reading a byte space answers the byte there; a byte of `IN_BUF` without a value
faults (70_reset_and_hazards.md R141). -/
def Obligations.ByteReadsAnswerTheByte : Prop :=
  ∀ (s : State) (k : Nat), s.nextTurn = .host →
    (∀ b, s.host.ops[s.host.pc]? = some (.access (.inRead k)) → k < 213 → s.inBuf.read .inBuf k = some b →
      ∃ t, step s = .next t ∧ t.host.reads = b.setWidth 64 :: s.host.reads) ∧
    (s.host.ops[s.host.pc]? = some (.access (.inRead k)) → k < 213 → s.inBuf.read .inBuf k = none →
      step s = .fault (.noValue (.inByte k))) ∧
    (∀ b, s.host.ops[s.host.pc]? = some (.access (.outRead k)) → k < 64 → s.outBuf.read .outBuf k = some b →
      ∃ t, step s = .next t ∧ t.host.reads = b.setWidth 64 :: s.host.reads)

/-- 42_controller.md R116, 10_state.md R11: register writes: `IN_LEN` and `GAS_BUDGET` store the value in any controller
state; every read-only or reserved number ignores it. Register 2, `CMD`, is in `StepRunsTheDecodedInstruction` and
`CommandWithoutStartDoesNothing`. -/
def Obligations.RegisterWritesStoreOrAreIgnored : Prop :=
  ∀ (s : State) (n : Nat) (w : Word), s.nextTurn = .host → s.host.ops[s.host.pc]? = some (.access (.regWrite n w)) →
    n ≠ 2 →
      ∃ t, step s = .next t ∧ t.host = { s.host with pc := s.host.pc + 1 } ∧ t.turns = s.turns.tail ∧
        (n = 0 → t = { s with inLen := w, inLenHasValue := true, host := t.host, turns := t.turns }) ∧
        (n = 1 → t = { s with gasBudget := w, gasBudgetHasValue := true, host := t.host, turns := t.turns }) ∧
        (3 ≤ n → SameBlock s t)

/-- 42_controller.md R116, 20_memory.md R39: a byte write to `IN_BUF` stores that byte and leaves every other byte and
register of the block; a byte write to `OUT_BUF` is ignored. The premise is the canonical form of `IN_BUF`. -/
def Obligations.ByteWritesStoreOrAreIgnored : Prop :=
  ∀ (s : State) (k : Nat) (b : Byte), s.nextTurn = .host → s.inBuf.wf .inBuf = true →
    (s.host.ops[s.host.pc]? = some (.access (.inWrite k b)) → k < 213 →
      ∃ t, step s = .next t ∧ t.inBuf.read .inBuf k = some b ∧
        (∀ j, j ≠ k → t.inBuf.read .inBuf j = s.inBuf.read .inBuf j) ∧ SameBlock { s with inBuf := t.inBuf } t) ∧
    (s.host.ops[s.host.pc]? = some (.access (.outWrite k b)) → k < 64 →
      ∃ t, step s = .next t ∧ SameBlock s t)

/-- 20_memory.md R30 (92 D30): a host access outside the byte spaces is refused. -/
def Obligations.AccessOutsideTheSpacesIsRefused : Prop :=
  ∀ (s : State) (k : Nat) (b : Byte), s.nextTurn = .host →
    (s.host.ops[s.host.pc]? = some (.access (.inRead k)) ∨ s.host.ops[s.host.pc]? = some (.access (.inWrite k b)) →
      213 ≤ k → step s = .refused (.outsideByteSpace .inBuf k)) ∧
    (s.host.ops[s.host.pc]? = some (.access (.outRead k)) ∨ s.host.ops[s.host.pc]? = some (.access (.outWrite k b)) →
      64 ≤ k → step s = .refused (.outsideByteSpace .outBuf k))

/-- 30_encoding.md R61: `WAIT` reads `STATUS` and stays until the code read is 2, 3 or 4. -/
def Obligations.WaitRepeatsUntilTerminal : Prop :=
  ∀ s : State, s.nextTurn = .host → s.host.ops[s.host.pc]? = some .wait →
    ∃ t, step s = .next t ∧ SameBlock s t ∧ t.host.reads = s.statusWord :: s.host.reads ∧
      (s.statusWord = 2 ∨ s.statusWord = 3 ∨ s.statusWord = 4 → t.host.pc = s.host.pc + 1) ∧
      (s.statusWord = 0 ∨ s.statusWord = 1 → t.host.pc = s.host.pc)

/-- 30_encoding.md R61: a host branch has no bus action and goes by the last value read; what `EQ` and `NE` do before any read
is the model's choice (log 10) and is not spoken of. -/
def Obligations.BranchFollowsTheLastRead : Prop :=
  ∀ (s : State) (cond : Cond) (target : Nat), s.nextTurn = .host →
    s.host.ops[s.host.pc]? = some (.branch cond target) →
      ∃ t, step s = .next t ∧ SameBlock s t ∧ t.host.reads = s.host.reads ∧ t.host.ops = s.host.ops ∧
        (cond = .always → t.host.pc = target) ∧
        ∀ (v last : Word) (earlier : List Word), s.host.reads = last :: earlier →
          (cond = .eq v → t.host.pc = if last = v then target else s.host.pc + 1) ∧
          (cond = .ne v → t.host.pc = if last = v then s.host.pc + 1 else target)

/-- 30_encoding.md R62: the expansion of `CALL` with any frame operand (R59, R60) and its bytes. -/
def Obligations.CallExpandsToFiveStatements : Prop :=
  ∀ (frame : FrameSyntax) (bytes : List Byte) (gas : Word), frame.bytes = some bytes →
    (Stmt.call frame gas).expand =
      some [.wr 0 (BitVec.ofNat 64 bytes.length), .wrbuf 0 (bytes.take 213), .wr 1 gas, .start, .wait]

/-- 20_memory.md R34, R37, R38, R39 (92 D2, D12), 42_controller.md R115, R116, 70_reset_and_hazards.md R140, R141, the form of
the bus, of a narrow write and of a cycle with several accesses being the model's (log 9): under any binding, how a number's
bytes stand on the bus; which register writes a transfer of any width makes and what it leaves staged; which accesses a write
cycle makes and in what order, and that each is the host step of that access; what a write cycle does to a register, to `CMD`
and to the byte spaces; what a read cycle answers on each lane, also when the block moves between two lanes; and the cycles
that reset the block or do nothing. Each part is a structure of `Safety.lean` whose fields are the clauses. -/
def Obligations.BusBytesCarryTheNumber : Prop :=
  ∀ b : Config.BusBinding,
    NumberBytes b.numericOrder ∧ RegisterTransfers b ∧ WriteCycles b ∧ RegisterCycles b ∧ ByteCycles b ∧ ReadCycles b ∧
      OtherCycles b

/-- 60_exceptions.md R131, 20_memory.md R43, several instances being a list in the model (log 22): an instance takes its own
step, stopping as that step stops, and every other instance stays as it is. -/
def Obligations.InstancesAreIndependent : Prop :=
  ∀ (k : Nat) (l : List State),
    (∀ s t : State, l[k]? = some s → step s = .next t →
      ∃ l', stepInstance k l = .next l' ∧ l'.length = l.length ∧ l'[k]? = some t ∧ ∀ j, j ≠ k → l'[j]? = l[j]?) ∧
    (∀ (s : State) (e : Fault), l[k]? = some s → step s = .fault e → stepInstance k l = .fault e) ∧
    (∀ (s : State) (e : Refusal), l[k]? = some s → step s = .refused e → stepInstance k l = .refused e)

/-! ## Whole operations -/

/-- 42_controller.md R114: for a legal frame every budget of at least `rounds` succeeds, with one and the same result, and
every smaller budget is OUT_OF_GAS. -/
def Obligations.GasMonotonicity : Prop :=
  ∀ (byte? : Nat → Option Byte) (n : Word32) (h : Vector Word 8) (m : Vector Word 16) (t : Vector Word 2) (f : Byte),
    decodeFrame 213#64 byte? = .ok (.blake2f n h m t f) →
      ∃ out : List Byte, out.length = 64 ∧ ∀ gas : Word,
        (n.toNat ≤ gas.toNat → Machine.run 213#64 byte? gas = some ⟨.success, BitVec.ofNat 64 n.toNat, out⟩) ∧
        (gas.toNat < n.toNat → Machine.run 213#64 byte? gas = some ⟨.outOfGas, 0, List.replicate 64 0x00#8⟩)

/-- The invariant at reset (70_reset_and_hazards.md R140). -/
def Obligations.InvariantHoldsAtReset : Prop := Inv State.reset

/-- The invariant is kept by every step, from every state that has it (10_state.md R15, R20; 20_memory.md R38; 42_controller.md
R106, R110, R112): canonical byte spaces, `STATUS.CODE` showing `CTL`, clear results without a success, the decoded call
matching the latched frame, the gas paid, `V` the seed after `RC` rounds, and in DONE the result registers equal to `run` of
the latched inputs. -/
def Obligations.EveryStepKeepsTheInvariant : Prop :=
  ∀ s t : State, Inv s → step s = .next t → Inv t

/-- 20_memory.md R38, 70_reset_and_hazards.md R146: while the code is 1 the host reads zero gas and 64 zero bytes; the
premise is the invariant. -/
def Obligations.BusyShowsNoResult : Prop :=
  ∀ s : State, Inv s → s.statusWord = 1 → s.gasUsed = 0 ∧ s.outBytes = List.replicate 64 0x00#8

/-- 42_controller.md R110, R111, R109; 70_reset_and_hazards.md R142: from any waiting state whose host has written what R142
asks and stands at a START, the machine reaches DONE with the result registers equal to `run` of the inputs, in 1, 2 or
`ROUNDS + 4` controller steps after START. `s.inBuf.wf` is the canonical form, which every reachable state has;
`turns = []` lets the controller move whenever it is busy (log 2). -/
def Obligations.StartReachesTheResultOfRun : Prop :=
  ∀ (s : State) (w : Word), s.turns = [] → s.ctl = .idle ∨ s.ctl = .done → s.inBuf.wf .inBuf = true → BootReady s →
    s.host.ops[s.host.pc]? = some (.access (.regWrite 2 w)) → w.getLsbD 0 = true →
      ∃ (n : Nat) (t : State), core.run (1 + n) s = .next t ∧ t.ctl = .done ∧
        Machine.run s.inLen (s.inBuf.read .inBuf) s.gasBudget = some t.result ∧
        ((t.status = .outOfRange ∧ n = 1) ∨ (t.status = .outOfGas ∧ n = 2) ∨
          (t.status = .success ∧ n = t.rounds.toNat + 4))

/-- 41_compression.md R89, 10_state.md R28: the result depends on the latched inputs alone: two operations with the same
latches end after the same number of steps with the same result, whatever else the two states hold. `n` is the first step
after which the first one is in DONE. -/
def Obligations.ResultDependsOnLatchesOnly : Prop :=
  ∀ (s₁ s₂ t₁ : State) (n : Nat), s₁.turns = [] → s₂.turns = [] → s₁.ctl = .decode → s₂.ctl = .decode →
    s₁.outBuf = [] → s₂.outBuf = [] → s₁.gasUsed = 0 → s₂.gasUsed = 0 →
    s₁.lLen = s₂.lLen → s₁.lLenHasValue = s₂.lLenHasValue → s₁.lGas = s₂.lGas → s₁.lGasHasValue = s₂.lGasHasValue →
    (∀ k, s₁.lBuf.read .lBuf k = s₂.lBuf.read .lBuf k) →
    core.run n s₁ = .next t₁ → t₁.ctl = .done →
    (∀ (k : Nat) (u : State), k < n → core.run k s₁ = .next u → u.ctl ≠ .done) →
      ∃ t₂ : State, core.run n s₂ = .next t₂ ∧ t₂.ctl = .done ∧ t₂.result = t₁.result

/-- 30_encoding.md R62, 42_controller.md R110: `CALL` is the host-side form of `run`: `CALL` of any frame operand, raw or
structured, and any gas assembles, and from any waiting block loaded with it the machine reaches a state in which the host
has passed its `WAIT` and the result registers hold `run` of the frame's length, its bytes and the gas. The host program in
the state is the model's (log 10), and so is the schedule of `turns = []` (log 2). -/
def Obligations.CallComputesRun : Prop :=
  ∀ (s : State) (frame : FrameSyntax) (bytes : List Byte) (gas : Word), s.turns = [] → s.ctl = .idle ∨ s.ctl = .done →
    s.inBuf.wf .inBuf = true → frame.bytes = some bytes → bytes.length < 2 ^ 64 →
      ∃ ops, assemble [.call frame gas] = some ops ∧
        ∃ (n : Nat) (t : State), core.run n (s.loadHost ops) = .next t ∧ t.ctl = .done ∧ t.host.pc = ops.length ∧
          Machine.run (BitVec.ofNat 64 bytes.length) (fun k => bytes[k]?) gas = some t.result
end

