-- ==== Sys2Proof/Laws/Decode.lean ====
section
/-! SUPPORT. The laws of the byte groups and of the decoder's parts. -/

namespace Sys2Proof.Laws

/-! ## Byte groups (00_scope.md R8) -/

theorem byte_lt (b : Byte) : b.toNat < 256 := b.isLt

/-- Eight digits to base 256 are the eight bytes of their number. -/
theorem eight_digits (a b c d e f g h : Nat) (ha : a < 256) (hb : b < 256) (hc : c < 256) (hd : d < 256) (he : e < 256)
    (hf : f < 256) (hg : g < 256) (hh : h < 256) :
    let s := a + b * 256 + c * 65536 + d * 16777216 + e * 4294967296 + f * 1099511627776 + g * 281474976710656
      + h * 72057594037927936
    s < 18446744073709551616 ∧ s % 256 = a ∧ s / 256 % 256 = b ∧ s / 65536 % 256 = c ∧ s / 16777216 % 256 = d ∧
      s / 4294967296 % 256 = e ∧ s / 1099511627776 % 256 = f ∧ s / 281474976710656 % 256 = g ∧
      s / 72057594037927936 % 256 = h := by
  refine ⟨?_, ?_, ?_, ?_, ?_, ?_, ?_, ?_, ?_⟩ <;> omega

/-- A number below `2^64` from its eight bytes. -/
theorem eight_bytes (n : Nat) (h : n < 18446744073709551616) :
    n % 256 + n / 256 % 256 * 256 + n / 65536 % 256 * 65536 + n / 16777216 % 256 * 16777216
      + n / 4294967296 % 256 * 4294967296 + n / 1099511627776 % 256 * 1099511627776
      + n / 281474976710656 % 256 * 281474976710656 + n / 72057594037927936 % 256 * 72057594037927936 = n := by
  omega

theorem le64_toNat (byte : Nat → Byte) (o : Nat) : (le64 byte o).toNat =
    (byte o).toNat + (byte (o + 1)).toNat * 256 + (byte (o + 2)).toNat * 65536 + (byte (o + 3)).toNat * 16777216
      + (byte (o + 4)).toNat * 4294967296 + (byte (o + 5)).toNat * 1099511627776
      + (byte (o + 6)).toNat * 281474976710656 + (byte (o + 7)).toNat * 72057594037927936 := by
  obtain ⟨h, -⟩ := eight_digits _ _ _ _ _ _ _ _ (byte_lt (byte o)) (byte_lt (byte (o + 1))) (byte_lt (byte (o + 2)))
    (byte_lt (byte (o + 3))) (byte_lt (byte (o + 4))) (byte_lt (byte (o + 5))) (byte_lt (byte (o + 6)))
    (byte_lt (byte (o + 7)))
  simp only [le64, BitVec.toNat_ofNat, Nat.reducePow]
  exact Nat.mod_eq_of_lt h

theorem extract_byte_toNat (w : Word) (k : Nat) : (w.extractLsb' (8 * k) 8).toNat = w.toNat / 2 ^ (8 * k) % 256 := by
  simp [BitVec.extractLsb'_toNat, Nat.shiftRight_eq_div_pow]

/-- Byte `k` of a word is its bits `8k+7 .. 8k` (30_encoding.md R50, R55). -/
theorem wordByte_eq_extract (w : Word) (k : Nat) : wordByte w k = w.extractLsb' (8 * k) 8 := by
  apply BitVec.eq_of_toNat_eq
  rw [extract_byte_toNat]
  simp [wordByte]

/-- Byte `o + k` of the bytes a word is read from is its bits `8k+7 .. 8k` (20_memory.md R33). -/
theorem extract_le64 (byte : Nat → Byte) (o k : Nat) (hk : k < 8) :
    (le64 byte o).extractLsb' (8 * k) 8 = byte (o + k) := by
  apply BitVec.eq_of_toNat_eq
  rw [extract_byte_toNat, le64_toNat]
  obtain ⟨-, h0, h1, h2, h3, h4, h5, h6, h7⟩ := eight_digits _ _ _ _ _ _ _ _ (byte_lt (byte o)) (byte_lt (byte (o + 1)))
    (byte_lt (byte (o + 2))) (byte_lt (byte (o + 3))) (byte_lt (byte (o + 4))) (byte_lt (byte (o + 5)))
    (byte_lt (byte (o + 6))) (byte_lt (byte (o + 7)))
  interval_cases k <;> norm_num only [Nat.reducePow, Nat.reduceMul, Nat.add_zero, Nat.div_one] <;> assumption

/-- A word read back from its little-endian bytes. -/
theorem le64_of_wordBytes (byte : Nat → Byte) (o : Nat) (w : Word) (h : ∀ k, k < 8 → byte (o + k) = wordByte w k) :
    le64 byte o = w := by
  apply BitVec.eq_of_toNat_eq
  rw [le64_toNat]
  have e : ∀ k, k < 8 → (byte (o + k)).toNat = w.toNat / 2 ^ (8 * k) % 256 := fun k hk => by
    rw [h k hk, wordByte_eq_extract, extract_byte_toNat]
  have e0 := e 0 (by decide)
  have e1 := e 1 (by decide)
  have e2 := e 2 (by decide)
  have e3 := e 3 (by decide)
  have e4 := e 4 (by decide)
  have e5 := e 5 (by decide)
  have e6 := e 6 (by decide)
  have e7 := e 7 (by decide)
  norm_num only [Nat.reducePow, Nat.reduceMul, Nat.add_zero, Nat.div_one] at e0 e1 e2 e3 e4 e5 e6 e7
  rw [e0, e1, e2, e3, e4, e5, e6, e7]
  exact eight_bytes w.toNat w.isLt

theorem be32_toNat (byte : Nat → Byte) (o : Nat) : (be32 byte o).toNat =
    (byte o).toNat * 16777216 + (byte (o + 1)).toNat * 65536 + (byte (o + 2)).toNat * 256 + (byte (o + 3)).toNat := by
  have b0 := byte_lt (byte o)
  have b1 := byte_lt (byte (o + 1))
  have b2 := byte_lt (byte (o + 2))
  have b3 := byte_lt (byte (o + 3))
  simp only [be32, BitVec.toNat_ofNat, Nat.reducePow]
  exact Nat.mod_eq_of_lt (by omega)

/-- Four digits to base 256 are the four bytes of their number. -/
theorem four_digits (a b c d : Nat) (ha : a < 256) (hb : b < 256) (hc : c < 256) (hd : d < 256) :
    let s := a * 16777216 + b * 65536 + c * 256 + d
    s / 16777216 % 256 = a ∧ s / 65536 % 256 = b ∧ s / 256 % 256 = c ∧ s % 256 = d := by
  refine ⟨?_, ?_, ?_, ?_⟩ <;> omega

theorem extract_byte_toNat32 (x : Word32) (k : Nat) :
    (x.extractLsb' (24 - 8 * k) 8).toNat = x.toNat / 2 ^ (24 - 8 * k) % 256 := by
  simp [BitVec.extractLsb'_toNat, Nat.shiftRight_eq_div_pow]

/-- Byte `k` of `rounds` is its bits `31-8k .. 24-8k` (30_encoding.md R50). -/
theorem extract_be32 (byte : Nat → Byte) (o k : Nat) (hk : k < 4) :
    (be32 byte o).extractLsb' (24 - 8 * k) 8 = byte (o + k) := by
  apply BitVec.eq_of_toNat_eq
  rw [extract_byte_toNat32, be32_toNat]
  obtain ⟨h0, h1, h2, h3⟩ := four_digits _ _ _ _ (byte_lt (byte o)) (byte_lt (byte (o + 1))) (byte_lt (byte (o + 2)))
    (byte_lt (byte (o + 3)))
  interval_cases k <;> norm_num only [Nat.reducePow, Nat.reduceMul, Nat.reduceSub, Nat.add_zero, Nat.div_one] <;> assumption

/-! ## Lists of little-endian words -/

/-- Byte `k` of `LE64bytes` (00_scope.md R8). -/
theorem le64Bytes_getElem? (w : Word) {k : Nat} (hk : k < 8) : (le64Bytes w)[k]? = some (wordByte w k) := by
  interval_cases k <;> rfl

theorem length_flatMap_bytes (l : List Word) : (l.flatMap le64Bytes).length = 8 * l.length := by
  induction l with
  | nil => rfl
  | cons w l ih =>
    rw [List.flatMap_cons, List.length_append, ih]
    simp only [le64Bytes, List.length_cons, List.length_nil]
    omega

/-- Byte `8i + k` of serialised words is byte `k` of word `i` (30_encoding.md R55). -/
theorem flatMap_bytes_getElem? (l : List Word) (i k : Nat) (hk : k < 8) :
    (l.flatMap le64Bytes)[8 * i + k]? = (l[i]?).map fun w => wordByte w k := by
  induction l generalizing i with
  | nil => simp
  | cons w l ih =>
    rw [List.flatMap_cons]
    cases i with
    | zero =>
      rw [List.getElem?_append_left (by simp [le64Bytes]; omega)]
      simpa using le64Bytes_getElem? w hk
    | succ i =>
      rw [List.getElem?_append_right (by simp [le64Bytes]; omega), List.getElem?_cons_succ, ← ih]
      congr 1
      simp only [le64Bytes, List.length_cons, List.length_nil]
      omega

/-! ## The decoder's parts -/

/-- The legal flag bytes (30_encoding.md R53). -/
theorem legalFlag_iff (f : Byte) : legalFlag f = true ↔ f = 0x00#8 ∨ f = 0x01#8 := by
  revert f
  decide

theorem firstMissing_eq_none (byte? : Nat → Option Byte) (n : Nat) :
    firstMissing byte? n = none ↔ ∀ k, k < n → (byte? k).isSome = true := by
  simp [firstMissing, List.find?_eq_none, Option.isSome_iff_ne_none]

/-- The byte a frame is first found to lack is the lowest one. -/
theorem firstMissing_eq_some (byte? : Nat → Option Byte) (n k : Nat) :
    firstMissing byte? n = some k ↔ k < n ∧ byte? k = none ∧ ∀ j, j < k → byte? j ≠ none := by
  rw [firstMissing, List.find?_range_eq_some]
  simp only [Option.isNone_iff_eq_none, List.mem_range, Bool.not_eq_true', Option.isNone_eq_false_iff,
    Option.isSome_iff_ne_none]
  tauto

/-- The decoder over a buffer all of whose bytes have values (40_decoder.md R65). -/
theorem decodeFrame_of_bytes (len : Word) (byte : Nat → Byte) : decodeFrame len (fun k => some (byte k)) =
    if len ≠ 213#64 then .error .lengthNot213
    else if legalFlag (byte 212) then .ok (frameFields byte (byte 212)) else .error .flagNotBool := by
  have hm : firstMissing (fun k => some (byte k)) 212 = none := by rw [firstMissing_eq_none]; simp
  unfold decodeFrame
  split
  · rfl
  · simp only [hm]
    rfl

/-- The decoder reads offsets below 213 only (40_decoder.md R68). -/
theorem decodeFrame_congr (len : Word) (byte? byte?' : Nat → Option Byte) (h : ∀ k, k < 213 → byte? k = byte?' k) :
    decodeFrame len byte? = decodeFrame len byte?' := by
  have hm : firstMissing byte? 212 = firstMissing byte?' 212 := by
    unfold firstMissing
    apply List.find?_congr
    intro k hk
    rw [h k (by have := List.mem_range.1 hk; omega)]
  have hg : ∀ k, k < 213 → (byte? k).getD 0#8 = (byte?' k).getD 0#8 := fun k hk => by rw [h k hk]
  have hw : ∀ o n, o + 8 * n ≤ 213 →
      wordsAt (fun k => (byte? k).getD 0#8) o n = wordsAt (fun k => (byte?' k).getD 0#8) o n := by
    intro o n hn
    apply Vector.ext
    intro i hi
    simp only [wordsAt, Vector.getElem_ofFn, le64]
    rw [hg _ (by omega), hg _ (by omega), hg _ (by omega), hg _ (by omega), hg _ (by omega), hg _ (by omega),
      hg _ (by omega), hg _ (by omega)]
  have hf : ∀ f, frameFields (fun k => (byte? k).getD 0#8) f = frameFields (fun k => (byte?' k).getD 0#8) f := by
    intro f
    simp only [frameFields, be32]
    rw [hg _ (by omega), hg _ (by omega), hg _ (by omega), hg _ (by omega), hw _ _ (by omega), hw _ _ (by omega),
      hw _ _ (by omega)]
  unfold decodeFrame
  rw [hm, h 212 (by omega)]
  simp only [hf]

/-- Every frame that decodes is a BLAKE2F (30_encoding.md R63). -/
theorem decodeFrame_blake2f {len : Word} {byte? : Nat → Option Byte} {i : Instr} (h : decodeFrame len byte? = .ok i) :
    len = 213#64 ∧ ∃ n hh m t f, i = .blake2f n hh m t f ∧ byte? 212 = some f ∧ legalFlag f = true ∧
      firstMissing byte? 212 = none ∧ i = frameFields (fun k => (byte? k).getD 0#8) f := by
  unfold decodeFrame at h
  split at h
  · cases h
  · next hlen =>
    refine ⟨not_not.1 hlen, ?_⟩
    split at h
    · cases h
    · next f hf =>
      split at h
      · next hflag =>
        split at h
        · cases h
        · next hm => cases h; exact ⟨_, _, _, _, f, rfl, hf, hflag, hm, rfl⟩
      · cases h

/-- A command word decodes to a START only (30_encoding.md R56). -/
theorem decodeCommand_start {w : Word} {i : Instr} (h : decodeCommand w = .ok i) :
    w.getLsbD 0 = true ∧ i = .start (w.extractLsb' 1 63) := by
  unfold decodeCommand at h
  split at h
  · next hb => cases h; exact ⟨hb, rfl⟩
  · cases h

theorem length_frameBytes (n : Word32) (h : Vector Word 8) (m : Vector Word 16) (t : Vector Word 2) (f : Byte) :
    (frameBytes n h m t f).length = 213 := by
  simp only [frameBytes, List.length_append, length_flatMap_bytes, Vector.length_toList]
  simp [be32Bytes]

end Sys2Proof.Laws
end

