-- ==== Sys2Proof/Laws/Bus.lean ====
section
/-! SUPPORT. The laws of the bus under any binding. -/

namespace Sys2Proof.Laws

open Sys2Proof.Machine

/-! ## The bytes of a number (20_memory.md R34) -/

theorem significance_lt (order : Config.ByteOrder) {k : Nat} (hk : k < 8) : significance order k < 8 := by
  unfold significance
  split <;> omega

/-- Both orders are their own inverses. -/
theorem significance_twice (order : Config.ByteOrder) {k : Nat} (hk : k < 8) :
    significance order (significance order k) = k := by
  cases order with
  | little => rfl
  | big => simp only [significance]; omega

theorem length_numericBytes (order : Config.ByteOrder) (w : Word) : (numericBytes order w).length = 8 := by
  rw [numericBytes, List.length_map, List.length_range]

theorem numericBytes_getElem? (order : Config.ByteOrder) (w : Word) {k : Nat} (hk : k < 8) :
    (numericBytes order w)[k]? = some (wordByte w (significance order k)) := by
  rw [numericBytes, List.getElem?_map, List.getElem?_range hk]
  rfl

/-- A number read from its own bytes. -/
theorem numericWord_of_bytes (order : Config.ByteOrder) (w : Word) (byte : Nat → Byte)
    (h : ∀ k, k < 8 → (numericBytes order w)[k]? = some (byte k)) : numericWord order byte = w := by
  apply le64_of_wordBytes
  intro k hk
  have e := h _ (significance_lt order hk)
  rw [numericBytes_getElem? order w (significance_lt order hk), significance_twice order hk, Option.some.injEq] at e
  rw [Nat.zero_add]
  exact e.symm

/-! ## Reads -/

/-- Lanes that all answer are answered in order. -/
theorem readLanes_of_lanes {b : Config.BusBinding} {seen : Nat → State} {c : Config.BusCycle} {count : Nat} {f : Nat → Option Byte}
    (h : ∀ i < count, laneByte b.numericOrder (seen (if b.readsAtomically c then 0 else i)) (b.lane c i) = .next (f i)) :
    readLanes b seen c count = .next ((List.range count).map f) := by
  induction count with
  | zero => rfl
  | succ i ih =>
    simp only [readLanes, ih fun j hj => h j (Nat.lt_succ_of_lt hj), h i (Nat.lt_succ_self i), List.range_succ, List.map_append,
      List.map_cons, List.map_nil]

/-- A lane bound to a byte of a register carries that byte of its value (20_memory.md R34). -/
theorem laneByte_register {s : State} {n : Nat} {w : Word} (order : Config.ByteOrder) (p : Fin 8) (h : s.regRead n = .ok w) :
    laneByte order s (some (.registerByte n p)) = .next (numericBytes order w)[p.val]? := by
  simp only [laneByte, laneAccess, hostAccess, h, numericBytes_getElem? order w p.isLt]
  rfl

/-! ## Staging -/

theorem mem_carried {b : Config.BusBinding} {c : Config.BusCycle} {e : Config.LaneTarget × Byte} :
    e ∈ carried b c ↔ ∃ i < c.lanes.length, b.lane c i = some e.1 ∧ c.lanes[i]? = some e.2 := by
  simp only [carried, List.mem_filterMap, List.mem_range, Option.bind_eq_some_iff, Option.map_eq_some_iff]
  constructor
  · rintro ⟨i, hi, target, ht, x, hx, rfl⟩
    exact ⟨i, hi, ht, hx⟩
  · rintro ⟨i, hi, ht, hx⟩
    exact ⟨i, hi, e.1, ht, e.2, hx, rfl⟩

/-- The newest staged byte of a position is the one found. -/
theorem byte?_cons (staged : Staged) (n m : Nat) (p q : Fin 8) (x : Byte) :
    Staged.byte? (⟨n, p, x⟩ :: staged) m q = if n = m ∧ p = q then some x else staged.byte? m q := by
  unfold Staged.byte?
  by_cases h : n = m ∧ p = q
  · rw [List.find?_cons_of_pos (by simpa using h), if_pos h]
    rfl
  · rw [List.find?_cons_of_neg (by simpa using h), if_neg h]

/-- What is staged of register `n` after carried bytes, those of register `n` agreeing with `byte`. -/
theorem byte?_foldl_stageByte {n : Nat} (byte : Fin 8 → Byte) (q : Fin 8) (l : List (Config.LaneTarget × Byte)) (staged : Staged)
    (h : ∀ p x, (.registerByte n p, x) ∈ l → x = byte p) :
    (l.foldl stageByte staged).byte? n q =
      if (.registerByte n q, byte q) ∈ l then some (byte q) else staged.byte? n q := by
  induction l generalizing staged with
  | nil => simp
  | cons e l ih =>
    rw [List.foldl_cons, ih _ fun p x he => h p x (List.mem_cons_of_mem _ he)]
    by_cases hq : (.registerByte n q, byte q) ∈ l
    · rw [if_pos hq, if_pos (List.mem_cons_of_mem _ hq)]
    · rw [if_neg hq]
      match e, h with
      | (.registerByte m p, x), h =>
        rw [stageByte, byte?_cons]
        by_cases hm : m = n ∧ p = q
        · obtain ⟨rfl, rfl⟩ := hm
          obtain rfl := h p x (List.mem_cons_self ..)
          rw [if_pos ⟨rfl, rfl⟩, if_pos (List.mem_cons_self ..)]
        · rw [if_neg hm, if_neg]
          simp only [List.mem_cons, Prod.mk.injEq, Config.LaneTarget.registerByte.injEq, not_or]
          exact ⟨fun e => hm ⟨e.1.1.symm, e.1.2.symm⟩, hq⟩
      | (.inByte k, x), _ => simp [stageByte, hq]
      | (.outByte k, x), _ => simp [stageByte, hq]

/-- Dropping the staged bytes of some registers. -/
theorem byte?_filter (staged : Staged) (drop : List Nat) (n : Nat) (p : Fin 8) :
    Staged.byte? (staged.filter fun e => !drop.contains e.register) n p =
      if n ∈ drop then none else staged.byte? n p := by
  induction staged with
  | nil => simp [Staged.byte?]
  | cons e staged ih =>
    obtain ⟨m, q, x⟩ := e
    by_cases hm : m ∈ drop
    · rw [List.filter_cons_of_neg (by simpa using hm), ih, byte?_cons]
      by_cases hn : n ∈ drop
      · rw [if_pos hn, if_pos hn]
      · rw [if_neg hn, if_neg hn, if_neg]
        rintro ⟨rfl, -⟩
        exact hn hm
    · rw [List.filter_cons_of_pos (by simpa using hm), byte?_cons, byte?_cons, ih]
      by_cases hn : n ∈ drop
      · rw [if_pos hn, if_pos hn, if_neg]
        rintro ⟨rfl, -⟩
        exact hm hn
      · rw [if_neg hn, if_neg hn]

/-! ## First occurrences -/

/-- `n` stands in `l` before any `m` does. -/
def FirstBefore (l : List Nat) (n m : Nat) : Prop := ∃ front back, l = front ++ n :: back ∧ m ∉ front ∧ m ≠ n

/-- Without its repetitions a list keeps the order of first occurrences. -/
theorem pairwise_eraseDups (l : List Nat) : l.eraseDups.Pairwise (FirstBefore l) := by
  match l with
  | [] => exact .nil
  | a :: as =>
    rw [List.eraseDups_cons]
    have other : ∀ m ∈ (as.filter fun b => !b == a).eraseDups, m ≠ a := by
      intro m hm
      simpa using (List.mem_filter.1 (List.mem_eraseDups.1 hm)).2
    refine List.pairwise_cons.2 ⟨fun m hm => ⟨[], as, rfl, List.not_mem_nil, other m hm⟩, ?_⟩
    refine (pairwise_eraseDups (as.filter fun b => !b == a)).imp_of_mem ?_
    rintro n m - hm ⟨front, back, he, hf, hne⟩
    obtain ⟨x, y, rfl, hx, hy⟩ := List.filter_eq_append_iff.1 he
    obtain ⟨z, w, rfl, hz, -, -⟩ := List.filter_eq_cons_iff.1 hy
    refine ⟨a :: (x ++ z), w, by simp, ?_, hne⟩
    have hma := other m hm
    rintro hmem
    rcases List.mem_cons.1 hmem with h | h
    · exact hma h
    · rcases List.mem_append.1 h with h | h
      · exact hf (hx ▸ List.mem_filter.2 ⟨h, by simpa using hma⟩)
      · exact hz m h (by simpa using hma)
termination_by l.length
decreasing_by exact Nat.lt_succ_of_le (List.length_filter_le _ _)

/-! ## Writes -/

theorem pendingByte_staged {b : Config.BusBinding} {s : State} {staged : Staged} {n : Nat} {p : Fin 8} {x : Byte}
    (h : staged.byte? n p = some x) : pendingByte b s staged n p = some x := by
  unfold pendingByte
  rw [h]

theorem pendingByte_waits {b : Config.BusBinding} {s : State} {staged : Staged} {n : Nat} {p : Fin 8}
    (h : staged.byte? n p = none) (hw : b.missing n = .waits) : pendingByte b s staged n p = none := by
  unfold pendingByte
  rw [h, hw]

/-- A register write is made once all eight bytes are there (20_memory.md R37). -/
theorem pendingWord_complete {b : Config.BusBinding} {s : State} {staged : Staged} {n : Nat} {w : Word}
    (h : ∀ p : Fin 8, pendingByte b s staged n p = (numericBytes b.numericOrder w)[p.val]?) :
    pendingWord b s staged n = some w := by
  have value : ∀ p : Fin 8, pendingByte b s staged n p = some (wordByte w (significance b.numericOrder p)) := fun p =>
    (h p).trans (numericBytes_getElem? _ w p.isLt)
  rw [pendingWord, if_pos (List.all_eq_true.2 fun p _ => by rw [value]; rfl), Option.some.injEq]
  apply numericWord_of_bytes
  intro k hk
  rw [value, numericBytes_getElem? _ w hk]
  simp [Fin.ofNat, Nat.mod_eq_of_lt hk]

theorem pendingWord_incomplete {b : Config.BusBinding} {s : State} {staged : Staged} {n : Nat} {p : Fin 8}
    (h : pendingByte b s staged n p = none) : pendingWord b s staged n = none := by
  rw [pendingWord, if_neg]
  intro all
  have := List.all_eq_true.1 all p (List.mem_finRange p)
  rw [h] at this
  cases this

theorem mem_registerNumber {l : List (Config.LaneTarget × Byte)} {n : Nat} :
    n ∈ l.filterMap registerNumber ↔ ∃ p x, (.registerByte n p, x) ∈ l := by
  rw [List.mem_filterMap]
  constructor
  · rintro ⟨⟨target, x⟩, hm, h⟩
    cases target with
    | registerByte m p => cases h; exact ⟨p, x, hm⟩
    | inByte k => cases h
    | outByte k => cases h
  · rintro ⟨p, x, h⟩
    exact ⟨_, h, rfl⟩

/-- The register writes of a transfer: those of the registers its lanes reach, where all eight bytes are there. -/
theorem mem_busWrite {b : Config.BusBinding} {staged : Staged} {s : State} {c : Config.BusCycle} {n : Nat} {w : Word} :
    .regWrite n w ∈ (busWrite b staged s c).2 ↔
      (∃ p x, (.registerByte n p, x) ∈ carried b c) ∧ pendingWord b s ((carried b c).foldl stageByte staged) n = some w := by
  have noByte : .regWrite n w ∉ (carried b c).filterMap byteAccess := by
    rw [List.mem_filterMap]
    rintro ⟨⟨target, x⟩, -, h⟩
    cases target <;> cases h
  simp [busWrite, noByte, ← mem_registerNumber]

/-- What a transfer leaves staged of a register: nothing if it is written, else what has come. -/
theorem byte?_busWrite (b : Config.BusBinding) (staged : Staged) (s : State) (c : Config.BusCycle) (n : Nat) (p : Fin 8) :
    (busWrite b staged s c).1.byte? n p =
      if ∃ w, .regWrite n w ∈ (busWrite b staged s c).2 then none
      else ((carried b c).foldl stageByte staged).byte? n p := by
  have written : (∃ w, .regWrite n w ∈ (busWrite b staged s c).2) ↔
      n ∈ (((carried b c).filterMap registerNumber).eraseDups.filterMap fun m =>
        (pendingWord b s ((carried b c).foldl stageByte staged) m).map fun w => (m, w)).map Prod.fst := by
    simp [mem_busWrite, ← mem_registerNumber]
  simp only [written]
  rw [busWrite]
  exact byte?_filter _ _ n p

/-- A transfer whose lanes all reach register `n` makes no byte space access and touches that register only. -/
theorem busWrite_register {b : Config.BusBinding} {c : Config.BusCycle} {n : Nat} (staged : Staged) (s : State)
    (hne : carried b c ≠ []) (h : ∀ e ∈ carried b c, ∃ p x, e = (.registerByte n p, x)) :
    busWrite b staged s c =
      match pendingWord b s ((carried b c).foldl stageByte staged) n with
      | some w => (((carried b c).foldl stageByte staged).filter fun e => !decide (e.register = n), [.regWrite n w])
      | none => ((carried b c).foldl stageByte staged, []) := by
  have noByte : (carried b c).filterMap byteAccess = [] := by
    rw [List.filterMap_eq_nil_iff]
    intro e he
    obtain ⟨p, x, rfl⟩ := h e he
    rfl
  have one : ((carried b c).filterMap registerNumber).eraseDups = [n] := by
    have all : ∀ m ∈ (carried b c).filterMap registerNumber, m = n := by
      intro m hm
      obtain ⟨e, he, hm⟩ := List.mem_filterMap.1 hm
      obtain ⟨p, x, rfl⟩ := h e he
      exact (Option.some.inj hm).symm
    obtain ⟨e, rest, hl⟩ := List.exists_cons_of_ne_nil hne
    obtain ⟨p, x, rfl⟩ := h e (hl ▸ List.mem_cons_self ..)
    have cons : ((carried b c).filterMap registerNumber) = n :: rest.filterMap registerNumber := by rw [hl]; rfl
    rw [cons] at all ⊢
    rw [List.eraseDups_cons, List.filter_eq_nil_iff.2, List.eraseDups_nil]
    intro m hm
    simp [all m (List.mem_cons_of_mem _ hm)]
  unfold busWrite
  simp only [noByte, one, List.filterMap_cons, List.filterMap_nil]
  cases pendingWord b s ((carried b c).foldl stageByte staged) n <;> simp

/-! ## Accesses one after the other -/

@[simp] theorem busAccesses_singleton (s : State) (a : Access) : busAccesses s [a] = busAccess s a := by
  rw [busAccesses]
  cases busAccess s a <;> rfl

theorem busAccesses_append (s : State) (as bs : List Access) : busAccesses s (as ++ bs) =
    match busAccesses s as with
    | .next t => busAccesses t bs
    | .fault e => .fault e
    | .refused e => .refused e := by
  induction as generalizing s with
  | nil => rfl
  | cons a as ih =>
    rw [List.cons_append, busAccesses, busAccesses]
    cases busAccess s a with
    | next t => exact ih t
    | fault e => rfl
    | refused e => rfl

end Sys2Proof.Laws
end

