-- ==== Sys2Proof/Laws/Memory.lean ====
section
/-! SUPPORT. The laws of the byte spaces: a read after a write, and the canonical form kept by every operation. -/

namespace Sys2Proof.Laws

open Sys2Proof.Machine

/-! ## Reads -/

theorem find_entry (sp : Space) (a : Nat) (b : Byte) (rest : Memory) (x : Nat) :
    (Memory.entry sp a b rest).find x =
      if sp.unwritten = some b then rest.find x else if a = x then some b else rest.find x := by
  unfold Memory.entry
  split <;> simp [Memory.find]

/-- In a memory whose offsets all lie above `a`, nothing is listed at `a`. -/
theorem find_none_of_below (mem : Memory) (a : Nat) (h : ∀ c ∈ mem, a < c.1) : mem.find a = none := by
  induction mem with
  | nil => rfl
  | cons c rest ih =>
    have hc := h c (by simp)
    simp only [Memory.find]
    rw [if_neg (by omega)]
    exact ih fun d hd => h d (by simp [hd])

theorem rising_tail {c : Host.Cell} {rest : Memory} (h : Memory.rising (c :: rest) = true) : rest.rising = true := by
  cases rest with
  | nil => rfl
  | cons d rest => simp only [Memory.rising, Bool.and_eq_true] at h; exact h.2

/-- The offsets after the first lie above it. -/
theorem rising_above {c : Host.Cell} {rest : Memory} (h : Memory.rising (c :: rest) = true) : ∀ d ∈ rest, c.1 < d.1 := by
  induction rest generalizing c with
  | nil => simp
  | cons d rest ih =>
    simp only [Memory.rising, Bool.and_eq_true, decide_eq_true_eq] at h
    intro e he
    rcases List.mem_cons.1 he with rfl | he
    · exact h.1
    · exact lt_trans h.1 (ih h.2 e he)

/-- A rising list stays rising under a lower first offset. -/
theorem rising_cons {c : Host.Cell} {rest : Memory} (hr : rest.rising = true) (h : ∀ d ∈ rest, c.1 < d.1) :
    Memory.rising (c :: rest) = true := by
  cases rest with
  | nil => rfl
  | cons d rest => simp only [Memory.rising, Bool.and_eq_true, decide_eq_true_eq]; exact ⟨h d (by simp), hr⟩

/-- What a write lists at an offset. -/
theorem find_write (sp : Space) (a : Nat) (b : Byte) (mem : Memory) (hr : mem.rising = true) (x : Nat) :
    (Memory.write sp a b mem).find x =
      if x = a then (if sp.unwritten = some b then none else some b) else mem.find x := by
  induction mem with
  | nil =>
    simp only [Memory.write, find_entry, Memory.find]
    by_cases hx : x = a
    · simp [hx]
    · simp [hx, Ne.symm hx]
  | cons c rest ih =>
    have above := rising_above hr
    simp only [Memory.write]
    split
    · next hlt =>
      rw [find_entry]
      by_cases hx : x = a
      · subst hx
        have : Memory.find (c :: rest) x = none := find_none_of_below _ _ (by
          intro d hd
          rcases List.mem_cons.1 hd with rfl | hd
          · exact hlt
          · exact lt_trans hlt (above d hd))
        simp [this]
      · simp [hx, Ne.symm hx]
    · split
      · next heq =>
        subst heq
        rw [find_entry]
        by_cases hx : x = c.1
        · subst hx
          simp [find_none_of_below rest c.1 above]
        · simp [hx, Ne.symm hx, Memory.find]
      · next hne hne' =>
        simp only [Memory.find, ih (rising_tail hr)]
        by_cases hx : x = a
        · subst hx
          rw [if_neg (Ne.symm hne')]
          simp
        · simp [hx]

/-- A read after a write (00_scope.md R8): the byte written at its offset, what was there elsewhere. -/
theorem read_write (sp : Space) (a : Nat) (b : Byte) (mem : Memory) (hr : mem.rising = true) (x : Nat) :
    (Memory.write sp a b mem).read sp x = if x = a then some b else mem.read sp x := by
  simp only [Memory.read, find_write sp a b mem hr]
  by_cases hx : x = a
  · subst hx
    by_cases hu : sp.unwritten = some b <;> simp [hu]
  · simp [hx]

/-! ## The canonical form -/

theorem wf_iff {sp : Space} {mem : Memory} :
    mem.wf sp = true ↔ mem.rising = true ∧ ∀ c ∈ mem, c.1 < sp.size ∧ sp.unwritten ≠ some c.2 := by
  simp [Memory.wf]

theorem wf_rising {sp : Space} {mem : Memory} (h : mem.wf sp = true) : mem.rising = true := (wf_iff.1 h).1

@[simp] theorem wf_nil (sp : Space) : Memory.wf sp [] = true := rfl

theorem mem_entry {sp : Space} {a : Nat} {b : Byte} {rest : Memory} {c : Host.Cell} (h : c ∈ Memory.entry sp a b rest) :
    (c = (a, b) ∧ sp.unwritten ≠ some b) ∨ c ∈ rest := by
  unfold Memory.entry at h
  split at h
  · exact .inr h
  · next hu => exact (List.mem_cons.1 h).imp (fun hc => ⟨hc, hu⟩) id

theorem rising_entry {sp : Space} {a : Nat} {b : Byte} {rest : Memory} (hr : rest.rising = true) (h : ∀ d ∈ rest, a < d.1) :
    (Memory.entry sp a b rest).rising = true := by
  unfold Memory.entry
  split
  · exact hr
  · exact rising_cons hr h

theorem mem_write {sp : Space} {a : Nat} {b : Byte} {mem : Memory} {c : Host.Cell} (h : c ∈ Memory.write sp a b mem) :
    (c = (a, b) ∧ sp.unwritten ≠ some b) ∨ c ∈ mem := by
  induction mem with
  | nil => exact mem_entry h
  | cons d rest ih =>
    simp only [Memory.write] at h
    split at h
    · exact mem_entry h
    · split at h
      · exact (mem_entry h).imp id (List.mem_cons_of_mem _)
      · rcases List.mem_cons.1 h with rfl | h
        · exact .inr (by simp)
        · exact (ih h).imp id (List.mem_cons_of_mem _)

theorem rising_write (sp : Space) (a : Nat) (b : Byte) (mem : Memory) (hr : mem.rising = true) :
    (Memory.write sp a b mem).rising = true := by
  induction mem with
  | nil => exact rising_entry rfl (by simp)
  | cons c rest ih =>
    have above := rising_above hr
    simp only [Memory.write]
    split
    · next hlt =>
      refine rising_entry hr fun d hd => ?_
      rcases List.mem_cons.1 hd with rfl | hd
      · exact hlt
      · exact lt_trans hlt (above d hd)
    · split
      · next heq => subst heq; exact rising_entry (rising_tail hr) above
      · refine rising_cons (ih (rising_tail hr)) fun d hd => ?_
        rcases mem_write hd with ⟨rfl, _⟩ | hd
        · show c.1 < a
          omega
        · exact above d hd

/-- A write of a byte inside the space keeps the canonical form. -/
theorem write_wf {sp : Space} {a : Nat} {b : Byte} {mem : Memory} (h : mem.wf sp = true) (ha : a < sp.size) :
    (Memory.write sp a b mem).wf sp = true := by
  rw [wf_iff] at h ⊢
  refine ⟨rising_write sp a b mem h.1, fun c hc => ?_⟩
  rcases mem_write hc with ⟨rfl, hu⟩ | hc
  · exact ⟨ha, hu⟩
  · exact h.2 c hc

/-! ## Writing several bytes -/

theorem rising_writeBytes (sp : Space) (a : Nat) (bs : List Byte) (mem : Memory) (hr : mem.rising = true) :
    (mem.writeBytes sp a bs).rising = true := by
  induction bs generalizing a mem with
  | nil => exact hr
  | cons b bs ih => exact ih (a + 1) _ (rising_write sp a b mem hr)

/-- A write of bytes inside the space keeps the canonical form. -/
theorem writeBytes_wf {sp : Space} {a : Nat} {bs : List Byte} {mem : Memory} (h : mem.wf sp = true)
    (ha : a + bs.length ≤ sp.size) : (mem.writeBytes sp a bs).wf sp = true := by
  induction bs generalizing a mem with
  | nil => exact h
  | cons b bs ih =>
    simp only [List.length_cons] at ha
    exact ih (write_wf h (by omega)) (by omega)

/-- A read after a write of several bytes. -/
theorem read_writeBytes (sp : Space) (a : Nat) (bs : List Byte) (mem : Memory) (hr : mem.rising = true) (x : Nat) :
    (mem.writeBytes sp a bs).read sp x =
      if a ≤ x ∧ x < a + bs.length then bs[x - a]? else mem.read sp x := by
  induction bs generalizing a mem with
  | nil => simp only [Memory.writeBytes, List.length_nil]; rw [if_neg (by omega)]
  | cons b bs ih =>
    simp only [Memory.writeBytes, ih (a + 1) _ (rising_write sp a b mem hr), read_write sp a b mem hr, List.length_cons]
    by_cases hx : x = a
    · subst hx
      rw [if_neg (by omega), if_pos rfl, if_pos (by omega)]
      simp
    · by_cases hin : a + 1 ≤ x ∧ x < a + 1 + bs.length
      · rw [if_pos hin, if_pos (by omega), show x - a = (x - (a + 1)) + 1 by omega]
        simp
      · rw [if_neg hin, if_neg hx, if_neg (by omega)]

/-! ## A space given by its bytes -/

theorem mem_cellsFrom {a : Nat} {bs : List Byte} {c : Host.Cell} (h : c ∈ Memory.cellsFrom a bs) :
    a ≤ c.1 ∧ c.1 < a + bs.length := by
  induction bs generalizing a with
  | nil => simp [Memory.cellsFrom] at h
  | cons b bs ih =>
    rcases List.mem_cons.1 h with rfl | h
    · simp
    · have := ih h
      simp only [List.length_cons]
      omega

theorem rising_cellsFrom (a : Nat) (bs : List Byte) : (Memory.cellsFrom a bs).rising = true := by
  induction bs generalizing a with
  | nil => rfl
  | cons b bs ih =>
    refine rising_cons (ih (a + 1)) fun d hd => ?_
    show a < d.1
    have := mem_cellsFrom hd
    omega

/-- Bytes placed from offset 0 list exactly those bytes. -/
theorem find_cellsFrom (a : Nat) (bs : List Byte) (x : Nat) :
    (Memory.cellsFrom a bs).find x = if a ≤ x then bs[x - a]? else none := by
  induction bs generalizing a with
  | nil => simp [Memory.cellsFrom, Memory.find]
  | cons b bs ih =>
    simp only [Memory.cellsFrom, Memory.find, ih]
    by_cases hx : a = x
    · subst hx; simp
    · rw [if_neg hx]
      by_cases hle : a + 1 ≤ x
      · rw [if_pos hle, if_pos (by omega), show x - a = (x - (a + 1)) + 1 by omega]
        simp
      · rw [if_neg hle, if_neg (by omega)]

/-- A frame placed in `L_BUF` is in canonical form. -/
theorem cellsFrom_wf {sp : Space} {bs : List Byte} (hu : sp.unwritten = none) (hl : bs.length ≤ sp.size) :
    (Memory.cellsFrom 0 bs).wf sp = true := by
  rw [wf_iff]
  refine ⟨rising_cellsFrom 0 bs, fun c hc => ⟨?_, by simp [hu]⟩⟩
  have := mem_cellsFrom hc
  omega

/-! ## The output bytes -/

/-- A cleared `OUT_BUF` reads as 64 zero bytes (10_state.md R18). -/
theorem outByte_clear {s : State} (h : s.outBuf = []) (k : Nat) : s.outByte k = 0x00#8 := by
  simp [State.outByte, h, Memory.read, Memory.find, Space.unwritten]

/-- After a whole output is written, the host reads exactly its bytes. -/
theorem outByte_writeBytes {s : State} {mem : Memory} {bs : List Byte} (h : s.outBuf = mem.writeBytes .outBuf 0 bs)
    (hr : mem.rising = true) {k : Nat} (hk : k < bs.length) : s.outByte k = bs[k] := by
  simp [State.outByte, h, read_writeBytes .outBuf 0 bs mem hr, hk]

end Sys2Proof.Laws
end

