-- ==== Sys2Proof/Laws/Mixer.lean ====
section
/-! SUPPORT. The laws of the compression datapath: word updates, the seed word by word, the size of the output, the cost. -/

namespace Sys2Proof.Laws

open Sys2Proof.Machine

/-! ## Word updates -/

/-- The word written is the word read. -/
theorem getElem_set_same (v : Vector Word 16) (a : Fin 16) (x : Word) : (v.set a x)[a] = x := by simp

/-- Another word stays. -/
theorem getElem_set_other (v : Vector Word 16) (a b : Fin 16) (x : Word) (h : a ≠ b) : (v.set a x)[b] = v[b] := by
  have : a.val ≠ b.val := fun e => h (Fin.ext e)
  simp [this]

/-! ## The seed (41_compression.md R83) -/

theorem getElem_initVector (h : Vector Word 8) (t : Vector Word 2) (final : Bool) (i : Nat) (hi : i < 16) :
    (initVector h t final)[i] =
      if h8 : i < 8 then h[i]
      else if i = 12 then iv[4] ^^^ t[0]
      else if i = 13 then iv[5] ^^^ t[1]
      else if i = 14 ∧ final = true then ~~~ iv[6]
      else iv[i - 8] := by
  unfold initVector
  by_cases h8 : i < 8
  · have h12 : ¬ 12 = i := by omega
    have h13 : ¬ 13 = i := by omega
    have h14 : ¬ 14 = i := by omega
    cases final <;> simp [h8, h12, h13, h14]
  · by_cases h12 : i = 12
    · subst h12; cases final <;> simp
    by_cases h13 : i = 13
    · subst h13; cases final <;> simp
    by_cases h14 : i = 14
    · subst h14; cases final <;> simp
    cases final <;> simp [h8, h12, h13, h14, Ne.symm h12, Ne.symm h13, Ne.symm h14]

/-! ## The output (R84) -/

theorem length_serialise (w : Vector Word 8) : (serialise w).length = 64 := by
  rw [serialise, length_flatMap_bytes]
  simp

/-! ## The cost (42_controller.md R102, R103) -/

/-- The product never wraps. -/
theorem gasCost_toNat (rounds : Word32) : (gasCost rounds).toNat = rounds.toNat := by
  have := rounds.isLt
  simp only [gasCost, Config.roundGasUnit, show (1 : Word) = 1#64 from rfl, BitVec.mul_one, BitVec.toNat_setWidth]
  omega

end Sys2Proof.Laws
end

