-- ==== Sys2Proof/Laws/PerInstr.lean ====
section
/-! SUPPORT. Laws of every instruction as syntax, one lemma per constructor. -/

namespace Sys2Proof.Laws

/-- The encoding has its format's size: a frame of 213 bytes (30_encoding.md R50), or a 64-bit command word with bit 0 set
(R56). -/
def EncodedLength.Statement (i : Instr) : Prop :=
  match encode i with
  | .frame len bytes => len = 213#64 ∧ bytes.length = 213
  | .command w => w.getLsbD 0 = true

theorem EncodedLength.blake2f (rounds : Word32) (h : Vector Word 8) (m : Vector Word 16) (t : Vector Word 2) (f : Byte) :
    EncodedLength.Statement (.blake2f rounds h m t f) :=
  ⟨rfl, length_frameBytes rounds h m t f⟩

theorem EncodedLength.start (ignored : BitVec 63) : EncodedLength.Statement (.start ignored) := by
  show (ignored ++ 1#1).getLsbD 0 = true
  rw [BitVec.getLsbD_append]
  rfl

end Sys2Proof.Laws
end

