-- ==== Sys2Proof/Laws/State.lean ====
section
/-! SUPPORT. One lemma per field per update of the state, so that no later proof unfolds a record update. -/

namespace Sys2Proof.Laws

open Sys2Proof.Machine

/-! ## An error ends the operation -/

@[simp] theorem raise_inLen (e : OpError) (s : State) : (raise e s).inLen = s.inLen := rfl
@[simp] theorem raise_inLenHasValue (e : OpError) (s : State) : (raise e s).inLenHasValue = s.inLenHasValue := rfl
@[simp] theorem raise_gasBudget (e : OpError) (s : State) : (raise e s).gasBudget = s.gasBudget := rfl
@[simp] theorem raise_gasBudgetHasValue (e : OpError) (s : State) : (raise e s).gasBudgetHasValue = s.gasBudgetHasValue := rfl
@[simp] theorem raise_inBuf (e : OpError) (s : State) : (raise e s).inBuf = s.inBuf := rfl
@[simp] theorem raise_status (e : OpError) (s : State) : (raise e s).status = e.code := rfl
@[simp] theorem raise_gasUsed (e : OpError) (s : State) : (raise e s).gasUsed = s.gasUsed := rfl
@[simp] theorem raise_outBuf (e : OpError) (s : State) : (raise e s).outBuf = s.outBuf := rfl
@[simp] theorem raise_lLen (e : OpError) (s : State) : (raise e s).lLen = s.lLen := rfl
@[simp] theorem raise_lLenHasValue (e : OpError) (s : State) : (raise e s).lLenHasValue = s.lLenHasValue := rfl
@[simp] theorem raise_lBuf (e : OpError) (s : State) : (raise e s).lBuf = s.lBuf := rfl
@[simp] theorem raise_lGas (e : OpError) (s : State) : (raise e s).lGas = s.lGas := rfl
@[simp] theorem raise_lGasHasValue (e : OpError) (s : State) : (raise e s).lGasHasValue = s.lGasHasValue := rfl
@[simp] theorem raise_rounds (e : OpError) (s : State) : (raise e s).rounds = s.rounds := rfl
@[simp] theorem raise_h (e : OpError) (s : State) : (raise e s).h = s.h := rfl
@[simp] theorem raise_m (e : OpError) (s : State) : (raise e s).m = s.m := rfl
@[simp] theorem raise_t (e : OpError) (s : State) : (raise e s).t = s.t := rfl
@[simp] theorem raise_f (e : OpError) (s : State) : (raise e s).f = s.f := rfl
@[simp] theorem raise_v (e : OpError) (s : State) : (raise e s).v = s.v := rfl
@[simp] theorem raise_rc (e : OpError) (s : State) : (raise e s).rc = s.rc := rfl
@[simp] theorem raise_ctl (e : OpError) (s : State) : (raise e s).ctl = .done := rfl
@[simp] theorem raise_host (e : OpError) (s : State) : (raise e s).host = s.host := rfl
@[simp] theorem raise_turns (e : OpError) (s : State) : (raise e s).turns = s.turns := rfl

/-! ## A reset -/

@[simp] theorem resetBlock_inLen (s : State) : (resetBlock s).inLen = State.reset.inLen := rfl
@[simp] theorem resetBlock_inLenHasValue (s : State) : (resetBlock s).inLenHasValue = State.reset.inLenHasValue := rfl
@[simp] theorem resetBlock_gasBudget (s : State) : (resetBlock s).gasBudget = State.reset.gasBudget := rfl
@[simp] theorem resetBlock_gasBudgetHasValue (s : State) : (resetBlock s).gasBudgetHasValue = State.reset.gasBudgetHasValue := rfl
@[simp] theorem resetBlock_inBuf (s : State) : (resetBlock s).inBuf = State.reset.inBuf := rfl
@[simp] theorem resetBlock_status (s : State) : (resetBlock s).status = State.reset.status := rfl
@[simp] theorem resetBlock_gasUsed (s : State) : (resetBlock s).gasUsed = State.reset.gasUsed := rfl
@[simp] theorem resetBlock_outBuf (s : State) : (resetBlock s).outBuf = State.reset.outBuf := rfl
@[simp] theorem resetBlock_lLen (s : State) : (resetBlock s).lLen = State.reset.lLen := rfl
@[simp] theorem resetBlock_lLenHasValue (s : State) : (resetBlock s).lLenHasValue = State.reset.lLenHasValue := rfl
@[simp] theorem resetBlock_lBuf (s : State) : (resetBlock s).lBuf = State.reset.lBuf := rfl
@[simp] theorem resetBlock_lGas (s : State) : (resetBlock s).lGas = State.reset.lGas := rfl
@[simp] theorem resetBlock_lGasHasValue (s : State) : (resetBlock s).lGasHasValue = State.reset.lGasHasValue := rfl
@[simp] theorem resetBlock_rounds (s : State) : (resetBlock s).rounds = State.reset.rounds := rfl
@[simp] theorem resetBlock_h (s : State) : (resetBlock s).h = State.reset.h := rfl
@[simp] theorem resetBlock_m (s : State) : (resetBlock s).m = State.reset.m := rfl
@[simp] theorem resetBlock_t (s : State) : (resetBlock s).t = State.reset.t := rfl
@[simp] theorem resetBlock_f (s : State) : (resetBlock s).f = State.reset.f := rfl
@[simp] theorem resetBlock_v (s : State) : (resetBlock s).v = State.reset.v := rfl
@[simp] theorem resetBlock_rc (s : State) : (resetBlock s).rc = State.reset.rc := rfl
@[simp] theorem resetBlock_ctl (s : State) : (resetBlock s).ctl = State.reset.ctl := rfl
@[simp] theorem resetBlock_host (s : State) : (resetBlock s).host = s.host := rfl
@[simp] theorem resetBlock_turns (s : State) : (resetBlock s).turns = s.turns := rfl

/-! ## A host read -/

@[simp] theorem recordRead_inLen (w : Word) (s : State) : (s.recordRead w).inLen = s.inLen := rfl
@[simp] theorem recordRead_inLenHasValue (w : Word) (s : State) : (s.recordRead w).inLenHasValue = s.inLenHasValue := rfl
@[simp] theorem recordRead_gasBudget (w : Word) (s : State) : (s.recordRead w).gasBudget = s.gasBudget := rfl
@[simp] theorem recordRead_gasBudgetHasValue (w : Word) (s : State) : (s.recordRead w).gasBudgetHasValue = s.gasBudgetHasValue := rfl
@[simp] theorem recordRead_inBuf (w : Word) (s : State) : (s.recordRead w).inBuf = s.inBuf := rfl
@[simp] theorem recordRead_status (w : Word) (s : State) : (s.recordRead w).status = s.status := rfl
@[simp] theorem recordRead_gasUsed (w : Word) (s : State) : (s.recordRead w).gasUsed = s.gasUsed := rfl
@[simp] theorem recordRead_outBuf (w : Word) (s : State) : (s.recordRead w).outBuf = s.outBuf := rfl
@[simp] theorem recordRead_lLen (w : Word) (s : State) : (s.recordRead w).lLen = s.lLen := rfl
@[simp] theorem recordRead_lLenHasValue (w : Word) (s : State) : (s.recordRead w).lLenHasValue = s.lLenHasValue := rfl
@[simp] theorem recordRead_lBuf (w : Word) (s : State) : (s.recordRead w).lBuf = s.lBuf := rfl
@[simp] theorem recordRead_lGas (w : Word) (s : State) : (s.recordRead w).lGas = s.lGas := rfl
@[simp] theorem recordRead_lGasHasValue (w : Word) (s : State) : (s.recordRead w).lGasHasValue = s.lGasHasValue := rfl
@[simp] theorem recordRead_rounds (w : Word) (s : State) : (s.recordRead w).rounds = s.rounds := rfl
@[simp] theorem recordRead_h (w : Word) (s : State) : (s.recordRead w).h = s.h := rfl
@[simp] theorem recordRead_m (w : Word) (s : State) : (s.recordRead w).m = s.m := rfl
@[simp] theorem recordRead_t (w : Word) (s : State) : (s.recordRead w).t = s.t := rfl
@[simp] theorem recordRead_f (w : Word) (s : State) : (s.recordRead w).f = s.f := rfl
@[simp] theorem recordRead_v (w : Word) (s : State) : (s.recordRead w).v = s.v := rfl
@[simp] theorem recordRead_rc (w : Word) (s : State) : (s.recordRead w).rc = s.rc := rfl
@[simp] theorem recordRead_ctl (w : Word) (s : State) : (s.recordRead w).ctl = s.ctl := rfl
@[simp] theorem recordRead_host (w : Word) (s : State) : (s.recordRead w).host = { s.host with reads := w :: s.host.reads } := rfl
@[simp] theorem recordRead_turns (w : Word) (s : State) : (s.recordRead w).turns = s.turns := rfl

/-! ## The host moves on -/

@[simp] theorem hostGoto_inLen (pc : Nat) (s : State) : (s.hostGoto pc).inLen = s.inLen := rfl
@[simp] theorem hostGoto_inLenHasValue (pc : Nat) (s : State) : (s.hostGoto pc).inLenHasValue = s.inLenHasValue := rfl
@[simp] theorem hostGoto_gasBudget (pc : Nat) (s : State) : (s.hostGoto pc).gasBudget = s.gasBudget := rfl
@[simp] theorem hostGoto_gasBudgetHasValue (pc : Nat) (s : State) : (s.hostGoto pc).gasBudgetHasValue = s.gasBudgetHasValue := rfl
@[simp] theorem hostGoto_inBuf (pc : Nat) (s : State) : (s.hostGoto pc).inBuf = s.inBuf := rfl
@[simp] theorem hostGoto_status (pc : Nat) (s : State) : (s.hostGoto pc).status = s.status := rfl
@[simp] theorem hostGoto_gasUsed (pc : Nat) (s : State) : (s.hostGoto pc).gasUsed = s.gasUsed := rfl
@[simp] theorem hostGoto_outBuf (pc : Nat) (s : State) : (s.hostGoto pc).outBuf = s.outBuf := rfl
@[simp] theorem hostGoto_lLen (pc : Nat) (s : State) : (s.hostGoto pc).lLen = s.lLen := rfl
@[simp] theorem hostGoto_lLenHasValue (pc : Nat) (s : State) : (s.hostGoto pc).lLenHasValue = s.lLenHasValue := rfl
@[simp] theorem hostGoto_lBuf (pc : Nat) (s : State) : (s.hostGoto pc).lBuf = s.lBuf := rfl
@[simp] theorem hostGoto_lGas (pc : Nat) (s : State) : (s.hostGoto pc).lGas = s.lGas := rfl
@[simp] theorem hostGoto_lGasHasValue (pc : Nat) (s : State) : (s.hostGoto pc).lGasHasValue = s.lGasHasValue := rfl
@[simp] theorem hostGoto_rounds (pc : Nat) (s : State) : (s.hostGoto pc).rounds = s.rounds := rfl
@[simp] theorem hostGoto_h (pc : Nat) (s : State) : (s.hostGoto pc).h = s.h := rfl
@[simp] theorem hostGoto_m (pc : Nat) (s : State) : (s.hostGoto pc).m = s.m := rfl
@[simp] theorem hostGoto_t (pc : Nat) (s : State) : (s.hostGoto pc).t = s.t := rfl
@[simp] theorem hostGoto_f (pc : Nat) (s : State) : (s.hostGoto pc).f = s.f := rfl
@[simp] theorem hostGoto_v (pc : Nat) (s : State) : (s.hostGoto pc).v = s.v := rfl
@[simp] theorem hostGoto_rc (pc : Nat) (s : State) : (s.hostGoto pc).rc = s.rc := rfl
@[simp] theorem hostGoto_ctl (pc : Nat) (s : State) : (s.hostGoto pc).ctl = s.ctl := rfl
@[simp] theorem hostGoto_host (pc : Nat) (s : State) : (s.hostGoto pc).host = { s.host with pc := pc } := rfl
@[simp] theorem hostGoto_turns (pc : Nat) (s : State) : (s.hostGoto pc).turns = s.turns := rfl

/-! ## A turn used up -/

@[simp] theorem pop_inLen (s : State) : s.pop.inLen = s.inLen := rfl
@[simp] theorem pop_inLenHasValue (s : State) : s.pop.inLenHasValue = s.inLenHasValue := rfl
@[simp] theorem pop_gasBudget (s : State) : s.pop.gasBudget = s.gasBudget := rfl
@[simp] theorem pop_gasBudgetHasValue (s : State) : s.pop.gasBudgetHasValue = s.gasBudgetHasValue := rfl
@[simp] theorem pop_inBuf (s : State) : s.pop.inBuf = s.inBuf := rfl
@[simp] theorem pop_status (s : State) : s.pop.status = s.status := rfl
@[simp] theorem pop_gasUsed (s : State) : s.pop.gasUsed = s.gasUsed := rfl
@[simp] theorem pop_outBuf (s : State) : s.pop.outBuf = s.outBuf := rfl
@[simp] theorem pop_lLen (s : State) : s.pop.lLen = s.lLen := rfl
@[simp] theorem pop_lLenHasValue (s : State) : s.pop.lLenHasValue = s.lLenHasValue := rfl
@[simp] theorem pop_lBuf (s : State) : s.pop.lBuf = s.lBuf := rfl
@[simp] theorem pop_lGas (s : State) : s.pop.lGas = s.lGas := rfl
@[simp] theorem pop_lGasHasValue (s : State) : s.pop.lGasHasValue = s.lGasHasValue := rfl
@[simp] theorem pop_rounds (s : State) : s.pop.rounds = s.rounds := rfl
@[simp] theorem pop_h (s : State) : s.pop.h = s.h := rfl
@[simp] theorem pop_m (s : State) : s.pop.m = s.m := rfl
@[simp] theorem pop_t (s : State) : s.pop.t = s.t := rfl
@[simp] theorem pop_f (s : State) : s.pop.f = s.f := rfl
@[simp] theorem pop_v (s : State) : s.pop.v = s.v := rfl
@[simp] theorem pop_rc (s : State) : s.pop.rc = s.rc := rfl
@[simp] theorem pop_ctl (s : State) : s.pop.ctl = s.ctl := rfl
@[simp] theorem pop_host (s : State) : s.pop.host = s.host := rfl
@[simp] theorem pop_turns (s : State) : s.pop.turns = s.turns.tail := rfl

/-! ## START -/

@[simp] theorem latchInputs_inLen (s : State) : (latchInputs s).inLen = s.inLen := rfl
@[simp] theorem latchInputs_inLenHasValue (s : State) : (latchInputs s).inLenHasValue = s.inLenHasValue := rfl
@[simp] theorem latchInputs_gasBudget (s : State) : (latchInputs s).gasBudget = s.gasBudget := rfl
@[simp] theorem latchInputs_gasBudgetHasValue (s : State) : (latchInputs s).gasBudgetHasValue = s.gasBudgetHasValue := rfl
@[simp] theorem latchInputs_inBuf (s : State) : (latchInputs s).inBuf = s.inBuf := rfl
@[simp] theorem latchInputs_status (s : State) : (latchInputs s).status = .busy := rfl
@[simp] theorem latchInputs_gasUsed (s : State) : (latchInputs s).gasUsed = 0 := rfl
@[simp] theorem latchInputs_outBuf (s : State) : (latchInputs s).outBuf = [] := rfl
@[simp] theorem latchInputs_lLen (s : State) : (latchInputs s).lLen = s.inLen := rfl
@[simp] theorem latchInputs_lLenHasValue (s : State) : (latchInputs s).lLenHasValue = s.inLenHasValue := rfl
@[simp] theorem latchInputs_lBuf (s : State) : (latchInputs s).lBuf = s.inBuf := rfl
@[simp] theorem latchInputs_lGas (s : State) : (latchInputs s).lGas = s.gasBudget := rfl
@[simp] theorem latchInputs_lGasHasValue (s : State) : (latchInputs s).lGasHasValue = s.gasBudgetHasValue := rfl
@[simp] theorem latchInputs_rounds (s : State) : (latchInputs s).rounds = s.rounds := rfl
@[simp] theorem latchInputs_h (s : State) : (latchInputs s).h = s.h := rfl
@[simp] theorem latchInputs_m (s : State) : (latchInputs s).m = s.m := rfl
@[simp] theorem latchInputs_t (s : State) : (latchInputs s).t = s.t := rfl
@[simp] theorem latchInputs_f (s : State) : (latchInputs s).f = s.f := rfl
@[simp] theorem latchInputs_v (s : State) : (latchInputs s).v = s.v := rfl
@[simp] theorem latchInputs_rc (s : State) : (latchInputs s).rc = s.rc := rfl
@[simp] theorem latchInputs_ctl (s : State) : (latchInputs s).ctl = .decode := rfl
@[simp] theorem latchInputs_host (s : State) : (latchInputs s).host = s.host := rfl
@[simp] theorem latchInputs_turns (s : State) : (latchInputs s).turns = s.turns := rfl

/-! ## DECODE -/

@[simp] theorem decodeStep_inLen (n : Word32) (h : Vector Word 8) (m : Vector Word 16) (t : Vector Word 2) (f : Byte) (s : State) : (decodeStep n h m t f s).inLen = s.inLen := rfl
@[simp] theorem decodeStep_inLenHasValue (n : Word32) (h : Vector Word 8) (m : Vector Word 16) (t : Vector Word 2) (f : Byte) (s : State) : (decodeStep n h m t f s).inLenHasValue = s.inLenHasValue := rfl
@[simp] theorem decodeStep_gasBudget (n : Word32) (h : Vector Word 8) (m : Vector Word 16) (t : Vector Word 2) (f : Byte) (s : State) : (decodeStep n h m t f s).gasBudget = s.gasBudget := rfl
@[simp] theorem decodeStep_gasBudgetHasValue (n : Word32) (h : Vector Word 8) (m : Vector Word 16) (t : Vector Word 2) (f : Byte) (s : State) : (decodeStep n h m t f s).gasBudgetHasValue = s.gasBudgetHasValue := rfl
@[simp] theorem decodeStep_inBuf (n : Word32) (h : Vector Word 8) (m : Vector Word 16) (t : Vector Word 2) (f : Byte) (s : State) : (decodeStep n h m t f s).inBuf = s.inBuf := rfl
@[simp] theorem decodeStep_status (n : Word32) (h : Vector Word 8) (m : Vector Word 16) (t : Vector Word 2) (f : Byte) (s : State) : (decodeStep n h m t f s).status = s.status := rfl
@[simp] theorem decodeStep_gasUsed (n : Word32) (h : Vector Word 8) (m : Vector Word 16) (t : Vector Word 2) (f : Byte) (s : State) : (decodeStep n h m t f s).gasUsed = s.gasUsed := rfl
@[simp] theorem decodeStep_outBuf (n : Word32) (h : Vector Word 8) (m : Vector Word 16) (t : Vector Word 2) (f : Byte) (s : State) : (decodeStep n h m t f s).outBuf = s.outBuf := rfl
@[simp] theorem decodeStep_lLen (n : Word32) (h : Vector Word 8) (m : Vector Word 16) (t : Vector Word 2) (f : Byte) (s : State) : (decodeStep n h m t f s).lLen = s.lLen := rfl
@[simp] theorem decodeStep_lLenHasValue (n : Word32) (h : Vector Word 8) (m : Vector Word 16) (t : Vector Word 2) (f : Byte) (s : State) : (decodeStep n h m t f s).lLenHasValue = s.lLenHasValue := rfl
@[simp] theorem decodeStep_lBuf (n : Word32) (h : Vector Word 8) (m : Vector Word 16) (t : Vector Word 2) (f : Byte) (s : State) : (decodeStep n h m t f s).lBuf = s.lBuf := rfl
@[simp] theorem decodeStep_lGas (n : Word32) (h : Vector Word 8) (m : Vector Word 16) (t : Vector Word 2) (f : Byte) (s : State) : (decodeStep n h m t f s).lGas = s.lGas := rfl
@[simp] theorem decodeStep_lGasHasValue (n : Word32) (h : Vector Word 8) (m : Vector Word 16) (t : Vector Word 2) (f : Byte) (s : State) : (decodeStep n h m t f s).lGasHasValue = s.lGasHasValue := rfl
@[simp] theorem decodeStep_rounds (n : Word32) (h : Vector Word 8) (m : Vector Word 16) (t : Vector Word 2) (f : Byte) (s : State) : (decodeStep n h m t f s).rounds = n := rfl
@[simp] theorem decodeStep_h (n : Word32) (h : Vector Word 8) (m : Vector Word 16) (t : Vector Word 2) (f : Byte) (s : State) : (decodeStep n h m t f s).h = h := rfl
@[simp] theorem decodeStep_m (n : Word32) (h : Vector Word 8) (m : Vector Word 16) (t : Vector Word 2) (f : Byte) (s : State) : (decodeStep n h m t f s).m = m := rfl
@[simp] theorem decodeStep_t (n : Word32) (h : Vector Word 8) (m : Vector Word 16) (t : Vector Word 2) (f : Byte) (s : State) : (decodeStep n h m t f s).t = t := rfl
@[simp] theorem decodeStep_f (n : Word32) (h : Vector Word 8) (m : Vector Word 16) (t : Vector Word 2) (f : Byte) (s : State) : (decodeStep n h m t f s).f = f.getLsbD 0 := rfl
@[simp] theorem decodeStep_v (n : Word32) (h : Vector Word 8) (m : Vector Word 16) (t : Vector Word 2) (f : Byte) (s : State) : (decodeStep n h m t f s).v = s.v := rfl
@[simp] theorem decodeStep_rc (n : Word32) (h : Vector Word 8) (m : Vector Word 16) (t : Vector Word 2) (f : Byte) (s : State) : (decodeStep n h m t f s).rc = s.rc := rfl
@[simp] theorem decodeStep_ctl (n : Word32) (h : Vector Word 8) (m : Vector Word 16) (t : Vector Word 2) (f : Byte) (s : State) : (decodeStep n h m t f s).ctl = .gascheck := rfl
@[simp] theorem decodeStep_host (n : Word32) (h : Vector Word 8) (m : Vector Word 16) (t : Vector Word 2) (f : Byte) (s : State) : (decodeStep n h m t f s).host = s.host := rfl
@[simp] theorem decodeStep_turns (n : Word32) (h : Vector Word 8) (m : Vector Word 16) (t : Vector Word 2) (f : Byte) (s : State) : (decodeStep n h m t f s).turns = s.turns := rfl

/-! ## INIT -/

@[simp] theorem initStep_inLen (s : State) : (initStep s).inLen = s.inLen := by simp only [initStep]
@[simp] theorem initStep_inLenHasValue (s : State) : (initStep s).inLenHasValue = s.inLenHasValue := by simp only [initStep]
@[simp] theorem initStep_gasBudget (s : State) : (initStep s).gasBudget = s.gasBudget := by simp only [initStep]
@[simp] theorem initStep_gasBudgetHasValue (s : State) : (initStep s).gasBudgetHasValue = s.gasBudgetHasValue := by simp only [initStep]
@[simp] theorem initStep_inBuf (s : State) : (initStep s).inBuf = s.inBuf := by simp only [initStep]
@[simp] theorem initStep_status (s : State) : (initStep s).status = s.status := by simp only [initStep]
@[simp] theorem initStep_gasUsed (s : State) : (initStep s).gasUsed = s.gasUsed := by simp only [initStep]
@[simp] theorem initStep_outBuf (s : State) : (initStep s).outBuf = s.outBuf := by simp only [initStep]
@[simp] theorem initStep_lLen (s : State) : (initStep s).lLen = s.lLen := by simp only [initStep]
@[simp] theorem initStep_lLenHasValue (s : State) : (initStep s).lLenHasValue = s.lLenHasValue := by simp only [initStep]
@[simp] theorem initStep_lBuf (s : State) : (initStep s).lBuf = s.lBuf := by simp only [initStep]
@[simp] theorem initStep_lGas (s : State) : (initStep s).lGas = s.lGas := by simp only [initStep]
@[simp] theorem initStep_lGasHasValue (s : State) : (initStep s).lGasHasValue = s.lGasHasValue := by simp only [initStep]
@[simp] theorem initStep_rounds (s : State) : (initStep s).rounds = s.rounds := by simp only [initStep]
@[simp] theorem initStep_h (s : State) : (initStep s).h = s.h := by simp only [initStep]
@[simp] theorem initStep_m (s : State) : (initStep s).m = s.m := by simp only [initStep]
@[simp] theorem initStep_t (s : State) : (initStep s).t = s.t := by simp only [initStep]
@[simp] theorem initStep_f (s : State) : (initStep s).f = s.f := by simp only [initStep]
@[simp] theorem initStep_v (s : State) : (initStep s).v = initVector s.h s.t s.f := by simp only [initStep]
@[simp] theorem initStep_rc (s : State) : (initStep s).rc = 0 := by simp only [initStep]
@[simp] theorem initStep_ctl (s : State) : (initStep s).ctl = if s.rounds = 0 then .final else .round := by simp only [initStep]
@[simp] theorem initStep_host (s : State) : (initStep s).host = s.host := by simp only [initStep]
@[simp] theorem initStep_turns (s : State) : (initStep s).turns = s.turns := by simp only [initStep]

/-! ## ROUND -/

@[simp] theorem roundStep_inLen (s : State) : (roundStep s).inLen = s.inLen := by simp only [roundStep]
@[simp] theorem roundStep_inLenHasValue (s : State) : (roundStep s).inLenHasValue = s.inLenHasValue := by simp only [roundStep]
@[simp] theorem roundStep_gasBudget (s : State) : (roundStep s).gasBudget = s.gasBudget := by simp only [roundStep]
@[simp] theorem roundStep_gasBudgetHasValue (s : State) : (roundStep s).gasBudgetHasValue = s.gasBudgetHasValue := by simp only [roundStep]
@[simp] theorem roundStep_inBuf (s : State) : (roundStep s).inBuf = s.inBuf := by simp only [roundStep]
@[simp] theorem roundStep_status (s : State) : (roundStep s).status = s.status := by simp only [roundStep]
@[simp] theorem roundStep_gasUsed (s : State) : (roundStep s).gasUsed = s.gasUsed := by simp only [roundStep]
@[simp] theorem roundStep_outBuf (s : State) : (roundStep s).outBuf = s.outBuf := by simp only [roundStep]
@[simp] theorem roundStep_lLen (s : State) : (roundStep s).lLen = s.lLen := by simp only [roundStep]
@[simp] theorem roundStep_lLenHasValue (s : State) : (roundStep s).lLenHasValue = s.lLenHasValue := by simp only [roundStep]
@[simp] theorem roundStep_lBuf (s : State) : (roundStep s).lBuf = s.lBuf := by simp only [roundStep]
@[simp] theorem roundStep_lGas (s : State) : (roundStep s).lGas = s.lGas := by simp only [roundStep]
@[simp] theorem roundStep_lGasHasValue (s : State) : (roundStep s).lGasHasValue = s.lGasHasValue := by simp only [roundStep]
@[simp] theorem roundStep_rounds (s : State) : (roundStep s).rounds = s.rounds := by simp only [roundStep]
@[simp] theorem roundStep_h (s : State) : (roundStep s).h = s.h := by simp only [roundStep]
@[simp] theorem roundStep_m (s : State) : (roundStep s).m = s.m := by simp only [roundStep]
@[simp] theorem roundStep_t (s : State) : (roundStep s).t = s.t := by simp only [roundStep]
@[simp] theorem roundStep_f (s : State) : (roundStep s).f = s.f := by simp only [roundStep]
@[simp] theorem roundStep_v (s : State) : (roundStep s).v = round s.v s.m s.rc := by simp only [roundStep]
@[simp] theorem roundStep_rc (s : State) : (roundStep s).rc = s.rc + 1 := by simp only [roundStep]
@[simp] theorem roundStep_ctl (s : State) : (roundStep s).ctl = if s.rc + 1 = s.rounds then .final else .round := by simp only [roundStep]
@[simp] theorem roundStep_host (s : State) : (roundStep s).host = s.host := by simp only [roundStep]
@[simp] theorem roundStep_turns (s : State) : (roundStep s).turns = s.turns := by simp only [roundStep]

/-! ## FINAL -/

@[simp] theorem finalStep_inLen (s : State) : (finalStep s).inLen = s.inLen := by simp only [finalStep]
@[simp] theorem finalStep_inLenHasValue (s : State) : (finalStep s).inLenHasValue = s.inLenHasValue := by simp only [finalStep]
@[simp] theorem finalStep_gasBudget (s : State) : (finalStep s).gasBudget = s.gasBudget := by simp only [finalStep]
@[simp] theorem finalStep_gasBudgetHasValue (s : State) : (finalStep s).gasBudgetHasValue = s.gasBudgetHasValue := by simp only [finalStep]
@[simp] theorem finalStep_inBuf (s : State) : (finalStep s).inBuf = s.inBuf := by simp only [finalStep]
@[simp] theorem finalStep_status (s : State) : (finalStep s).status = .success := by simp only [finalStep]
@[simp] theorem finalStep_gasUsed (s : State) : (finalStep s).gasUsed = gasCost s.rounds := by simp only [finalStep]
@[simp] theorem finalStep_outBuf (s : State) : (finalStep s).outBuf = s.outBuf.writeBytes .outBuf 0 (serialise (fold s.h s.v)) := by simp only [finalStep]
@[simp] theorem finalStep_lLen (s : State) : (finalStep s).lLen = s.lLen := by simp only [finalStep]
@[simp] theorem finalStep_lLenHasValue (s : State) : (finalStep s).lLenHasValue = s.lLenHasValue := by simp only [finalStep]
@[simp] theorem finalStep_lBuf (s : State) : (finalStep s).lBuf = s.lBuf := by simp only [finalStep]
@[simp] theorem finalStep_lGas (s : State) : (finalStep s).lGas = s.lGas := by simp only [finalStep]
@[simp] theorem finalStep_lGasHasValue (s : State) : (finalStep s).lGasHasValue = s.lGasHasValue := by simp only [finalStep]
@[simp] theorem finalStep_rounds (s : State) : (finalStep s).rounds = s.rounds := by simp only [finalStep]
@[simp] theorem finalStep_h (s : State) : (finalStep s).h = s.h := by simp only [finalStep]
@[simp] theorem finalStep_m (s : State) : (finalStep s).m = s.m := by simp only [finalStep]
@[simp] theorem finalStep_t (s : State) : (finalStep s).t = s.t := by simp only [finalStep]
@[simp] theorem finalStep_f (s : State) : (finalStep s).f = s.f := by simp only [finalStep]
@[simp] theorem finalStep_v (s : State) : (finalStep s).v = s.v := by simp only [finalStep]
@[simp] theorem finalStep_rc (s : State) : (finalStep s).rc = s.rc := by simp only [finalStep]
@[simp] theorem finalStep_ctl (s : State) : (finalStep s).ctl = .done := by simp only [finalStep]
@[simp] theorem finalStep_host (s : State) : (finalStep s).host = s.host := by simp only [finalStep]
@[simp] theorem finalStep_turns (s : State) : (finalStep s).turns = s.turns := by simp only [finalStep]

end Sys2Proof.Laws
end

