-- ==== Sys2Proof/Laws/Step.lean ====
section
/-! SUPPORT. What one step can do, said once: later proofs cite `step_cases` instead of unfolding the step. -/

namespace Sys2Proof.Laws

open Sys2Proof.Machine

/-! ## The shared operations -/

/-- A register read changes nothing but the host's record (20_memory.md R39). -/
theorem regRead_cases {s : State} {n : Nat} {w : Word} (h : s.regRead n = .ok w) :
    (n = 0 ∧ s.inLenHasValue = true ∧ w = s.inLen) ∨ (n = 1 ∧ s.gasBudgetHasValue = true ∧ w = s.gasBudget) ∨
    (n = 3 ∧ w = s.statusWord) ∨ (n = 4 ∧ w = s.gasUsed) ∨ ((n = 2 ∨ 5 ≤ n) ∧ w = 0) := by
  match n with
  | 0 =>
    simp only [State.regRead] at h
    split at h
    · next hv => exact .inl ⟨rfl, hv, (Except.ok.inj h).symm⟩
    · cases h
  | 1 =>
    simp only [State.regRead] at h
    split at h
    · next hv => exact .inr (.inl ⟨rfl, hv, (Except.ok.inj h).symm⟩)
    · cases h
  | 2 => exact .inr (.inr (.inr (.inr ⟨.inl rfl, (Except.ok.inj h).symm⟩)))
  | 3 => exact .inr (.inr (.inl ⟨rfl, (Except.ok.inj h).symm⟩))
  | 4 => exact .inr (.inr (.inr (.inl ⟨rfl, (Except.ok.inj h).symm⟩)))
  | n + 5 => exact .inr (.inr (.inr (.inr ⟨.inr (by omega), (Except.ok.inj h).symm⟩)))

/-- A register write stores into `IN_LEN` or `GAS_BUDGET`, or is ignored (42_controller.md R116). -/
theorem regWrite_cases (s : State) (value : Word) (n : Nat) :
    (n = 0 ∧ s.regWrite value n = { s with inLen := value, inLenHasValue := true }) ∨
    (n = 1 ∧ s.regWrite value n = { s with gasBudget := value, gasBudgetHasValue := true }) ∨
    (2 ≤ n ∧ s.regWrite value n = s) := by
  match n with
  | 0 => exact .inl ⟨rfl, rfl⟩
  | 1 => exact .inr (.inl ⟨rfl, rfl⟩)
  | n + 2 => exact .inr (.inr ⟨by omega, rfl⟩)

/-- What a host access that is no command can do: it touches the input registers or the host's record, nothing else. -/
inductive AccessCase (s : State) : Access → State → Prop where
  | read (a : Access) (w : Word) : AccessCase s a (s.recordRead w)
  | length (value : Word) : AccessCase s (.regWrite 0 value) { s with inLen := value, inLenHasValue := true }
  | budget (value : Word) : AccessCase s (.regWrite 1 value) { s with gasBudget := value, gasBudgetHasValue := true }
  | input (k : Nat) (b : Byte) (hk : k < 213) : AccessCase s (.inWrite k b) { s with inBuf := s.inBuf.write .inBuf k b }
  | ignored (a : Access) : AccessCase s a s

theorem hostAccess_cases {s t : State} {a : Access} (h : hostAccess s a = .next t) : AccessCase s a t := by
  cases a with
  | regRead n =>
    simp only [hostAccess] at h
    split at h
    · cases h; exact .read _ _
    · cases h
  | regWrite n value =>
    simp only [hostAccess, Host.Outcome.next.injEq] at h
    subst h
    rcases regWrite_cases s value n with ⟨rfl, e⟩ | ⟨rfl, e⟩ | ⟨_, e⟩
    · rw [e]; exact .length value
    · rw [e]; exact .budget value
    · rw [e]; exact .ignored _
  | inRead k =>
    simp only [hostAccess, readInByte] at h
    split at h
    · split at h
      · cases h; exact .read _ _
      · cases h
    · cases h
  | inWrite k b =>
    simp only [hostAccess] at h
    split at h
    · next hk => cases h; exact .input k b hk
    · cases h
  | outRead k =>
    simp only [hostAccess] at h
    split at h
    · cases h; exact .read _ _
    · cases h
  | outWrite k b =>
    simp only [hostAccess] at h
    split at h
    · cases h; exact .ignored _
    · cases h

/-- GASCHECK goes on only with a budget, and then either raises or passes (42_controller.md R102). -/
theorem gasCheckStep_cases {s t : State} (h : gasCheckStep s = .next t) :
    s.lGasHasValue = true ∧
      ((s.lGas < gasCost s.rounds ∧ t = raise .outOfGas s) ∨ (¬ s.lGas < gasCost s.rounds ∧ t = { s with ctl := .init })) := by
  simp only [gasCheckStep] at h
  split at h
  · next hv =>
    refine ⟨hv, ?_⟩
    simp only [Host.Outcome.next.injEq] at h
    split at h
    · next hlt => exact .inl ⟨hlt, h.symm⟩
    · next hge => exact .inr ⟨hge, h.symm⟩
  · cases h

/-! ## The step -/

/-- What one step that goes on can do, from `s` with its turn used up (`s.pop`). -/
inductive StepCase (s : State) : State → Prop where
  /-- A reset (70_reset_and_hazards.md R140). -/
  | reset (turn : s.nextTurn = .reset) : StepCase s (resetBlock s.pop)
  /-- The controller's turn while it waits (42_controller.md R108). -/
  | waits (turn : s.nextTurn = .controller) (hctl : s.ctl.busy = false) : StepCase s s.pop
  /-- DECODE on a legal frame (40_decoder.md R70). -/
  | decode (n : Word32) (h : Vector Word 8) (m : Vector Word 16) (t : Vector Word 2) (f : Byte)
      (turn : s.nextTurn = .controller) (hctl : s.ctl = .decode) (hlen : s.lLenHasValue = true)
      (hdec : s.decodeLatched = .ok (.blake2f n h m t f)) : StepCase s (decodeStep n h m t f s.pop)
  /-- DECODE on an illegal frame (60_exceptions.md R121). -/
  | illegal (e : Reject) (turn : s.nextTurn = .controller) (hctl : s.ctl = .decode) (hlen : s.lLenHasValue = true)
      (hdec : s.decodeLatched = .error e) (he : ∀ k, e ≠ .noByte k) : StepCase s (raise .outOfRange s.pop)
  /-- GASCHECK, too dear (60_exceptions.md R122). -/
  | tooDear (turn : s.nextTurn = .controller) (hctl : s.ctl = .gascheck) (hgas : s.lGasHasValue = true)
      (hlt : s.lGas < gasCost s.rounds) : StepCase s (raise .outOfGas s.pop)
  /-- GASCHECK passed (42_controller.md R102). -/
  | passed (turn : s.nextTurn = .controller) (hctl : s.ctl = .gascheck) (hgas : s.lGasHasValue = true)
      (hge : ¬ s.lGas < gasCost s.rounds) : StepCase s { s.pop with ctl := .init }
  /-- INIT (R104). -/
  | init (turn : s.nextTurn = .controller) (hctl : s.ctl = .init) : StepCase s (initStep s.pop)
  /-- ROUND (R105). -/
  | round (turn : s.nextTurn = .controller) (hctl : s.ctl = .round) : StepCase s (roundStep s.pop)
  /-- FINAL (R107). -/
  | final (turn : s.nextTurn = .controller) (hctl : s.ctl = .final) : StepCase s (finalStep s.pop)
  /-- START accepted (R100). -/
  | start (turn : s.nextTurn = .host) (hctl : s.ctl.busy = false) : StepCase s (latchInputs (s.pop.hostGoto (s.host.pc + 1)))
  /-- A host step that changes the host's side only: a branch, a `WAIT`, a dropped START, a command word without START, or
  nothing. -/
  | host (turn : s.nextTurn = .host) (side : HostSide) : StepCase s { s.pop with host := side }
  /-- A host access that is no command (R115, R116). -/
  | access (turn : s.nextTurn = .host) (a : Access) (t : State) (hacc : AccessCase (s.pop.hostGoto (s.host.pc + 1)) a t) :
      StepCase s t

/-- What running a fetched item leaves. -/
def perform : Fetched → Host.Outcome State Fault Refusal
  | .instr i t => exec i t
  | .act o => o

theorem step_eq_perform (s : State) : step s = perform (fetch s) := by
  unfold step perform
  cases fetch s <;> rfl

/-- A controller turn (log 1). -/
theorem step_controller {s : State} (turn : s.nextTurn = .controller) : step s = perform (fetchController s.pop) := by
  rw [step_eq_perform]
  unfold fetch
  rw [turn]

/-- What a host statement does, from `s` with its turn used up (30_encoding.md R61). -/
def hostOpAct (s : State) : HostOp → Fetched
  | .access a => fetchAccess (s.hostGoto (s.host.pc + 1)) a
  | .wait => .act (.next (hostWait s))
  | .branch cond target => .act (.next (hostBranch cond target s))

/-- A host turn on a statement. -/
theorem step_host {s : State} {op : HostOp} (turn : s.nextTurn = .host) (h : s.host.ops[s.host.pc]? = some op) :
    step s = perform (hostOpAct s.pop op) := by
  rw [step_eq_perform]
  unfold fetch
  simp only [turn]
  unfold fetchHost
  simp only [pop_host, h]
  cases op <;> rfl

/-- A reset turn. -/
theorem step_reset {s : State} (turn : s.nextTurn = .reset) : step s = .next (resetBlock s.pop) := by
  rw [step_eq_perform]
  unfold fetch
  rw [turn]
  rfl

/-- Who moves when no schedule is left (log 2). -/
theorem nextTurn_nil {s : State} (h : s.turns = []) :
    s.nextTurn = if s.ctl.busy then .controller else .host := by
  unfold State.nextTurn
  rw [h]

theorem controller_cases {s t : State} (turn : s.nextTurn = .controller) (h : perform (fetchController s.pop) = .next t) : StepCase s t := by
  unfold fetchController at h
  simp only [pop_ctl] at h
  split at h
  · next hc => cases h; exact .waits turn (by rw [hc]; rfl)
  · next hc => cases h; exact .waits turn (by rw [hc]; rfl)
  · next hc =>
    split at h
    · next hlen =>
      have same : s.pop.decodeLatched = s.decodeLatched := rfl
      rw [same] at h
      split at h
      · next i hd =>
        obtain ⟨_, n, hh, m, t', f, rfl, _⟩ := decodeFrame_blake2f hd
        simp only [perform, exec, execBlake2f, pop_ctl, hc, Host.Outcome.next.injEq] at h
        subst h
        exact .decode n hh m t' f turn hc hlen hd
      · cases h
      · next e hne hd => cases h; exact .illegal e turn hc hlen hd (fun k hk => hne k hk)
    · cases h
  · next hc =>
    simp only [perform, State.currentCall, exec, execBlake2f, pop_ctl, hc] at h
    obtain ⟨hg, ⟨hlt, rfl⟩ | ⟨hge, rfl⟩⟩ := gasCheckStep_cases h
    · exact .tooDear turn hc hg hlt
    · exact .passed turn hc hg hge
  · next hc =>
    simp only [perform, State.currentCall, exec, execBlake2f, pop_ctl, hc, Host.Outcome.next.injEq] at h
    subst h; exact .init turn hc
  · next hc =>
    simp only [perform, State.currentCall, exec, execBlake2f, pop_ctl, hc, Host.Outcome.next.injEq] at h
    subst h; exact .round turn hc
  · next hc =>
    simp only [perform, State.currentCall, exec, execBlake2f, pop_ctl, hc, Host.Outcome.next.injEq] at h
    subst h; exact .final turn hc

theorem host_cases {s t : State} (turn : s.nextTurn = .host) (h : perform (fetchHost s.pop) = .next t) : StepCase s t := by
  unfold fetchHost at h
  simp only [pop_host] at h
  split at h
  · cases h; exact .host turn s.host
  · next a ha =>
    unfold fetchAccess at h
    split at h
    · next value =>
      split at h
      · next i hd =>
        obtain ⟨_, rfl⟩ := decodeCommand_start hd
        simp only [perform, exec, execStart] at h
        split at h
        · cases h; exact .host turn _
        · next hb =>
          cases h
          rw [hostGoto_ctl, pop_ctl] at hb
          exact .start turn (by simpa using hb)
      · cases h; exact .host turn _
    · exact .access turn a t (hostAccess_cases h)
  · cases h; exact .host turn _
  · cases h; exact .host turn _

/-- What one step can do. -/
theorem step_cases {s t : State} (h : step s = .next t) : StepCase s t := by
  rw [step_eq_perform] at h
  unfold fetch at h
  split at h
  · next ht => exact controller_cases ht h
  · next ht => exact host_cases ht h
  · next ht => cases h; exact .reset ht

/-- Every step keeps the canonical form of the three byte spaces. -/
theorem step_wf {s t : State} (hi : s.inBuf.wf .inBuf = true) (ho : s.outBuf.wf .outBuf = true)
    (hl : s.lBuf.wf .lBuf = true) (h : step s = .next t) :
    t.inBuf.wf .inBuf = true ∧ t.outBuf.wf .outBuf = true ∧ t.lBuf.wf .lBuf = true := by
  have latch : Memory.wf .lBuf s.inBuf = true := hi
  have same := And.intro hi (And.intro ho hl)
  cases step_cases h with
  | final turn hctl =>
    refine ⟨by simpa using hi, ?_, by simpa using hl⟩
    rw [finalStep_outBuf]
    exact writeBytes_wf ho (by rw [length_serialise]; decide)
  | access turn a t hacc =>
    cases hacc with
    | input k b hk => exact ⟨write_wf hi hk, ho, hl⟩
    | _ => exact same
  | start turn hctl => exact ⟨hi, rfl, latch⟩
  | reset turn => exact ⟨rfl, rfl, rfl⟩
  | _ => simpa using same

end Sys2Proof.Laws
end

