-- ==== Sys2Proof/Tests/Slice0.lean ====
section
/-! SUPPORT. The model's own tests, and for every statement with hypotheses a witness that meets them. Expected values come
from spec/95_test_vectors.md and the formats of spec/30_encoding.md. -/

namespace Sys2Proof.Tests

open Sys2Proof.Machine

/-! ## Helpers -/

/-- `count` bytes written as one hex number, the first byte leading. -/
def bytesOf (n count : Nat) : List Byte := (List.range count).map fun k => natByte n (count - 1 - k)

/-- The frame of 95_test_vectors.md K2. -/
def frameK2 : List Byte := bytesOf 0x0000000c48c9bdf267e6096a3ba7ca8485ae67bb2bf894fe72f36e3cf1361d5f3af54fa5d182e6ad7f520e511f6c3e2b8c68059b6bbd41fbabd9831f79217e1319cde05b61626300000000000000000000000000000000000000000000000000000000000000000000000000000000000000000000000000000000000000000000000000000000000000000000000000000000000000000000000000000000000000000000000000000000000000000000000000000000000000000000000000000000000300000000000000000000000000000001 213

/-- The fields of K2 as the table of K1 lists them. -/
def hK2 : Vector Word 8 :=
  #v[0x6a09e667f2bdc948, 0xbb67ae8584caa73b, 0x3c6ef372fe94f82b, 0xa54ff53a5f1d36f1,
     0x510e527fade682d1, 0x9b05688c2b3e6c1f, 0x1f83d9abfb41bd6b, 0x5be0cd19137e2179]

def mK2 : Vector Word 16 := #v[0x0000000000636261, 0, 0, 0, 0, 0, 0, 0, 0, 0, 0, 0, 0, 0, 0, 0]

def tK2 : Vector Word 2 := #v[3, 0]

def isNext (o : Host.Outcome State Fault Refusal) (p : State → Bool) : Bool :=
  match o with
  | .next t => p t
  | .fault _ => false
  | .refused _ => false

def isFault (o : Host.Outcome State Fault Refusal) (f : Fault) : Bool :=
  match o with
  | .next _ => false
  | .fault e => e == f
  | .refused _ => false

def isRefusal (o : Host.Outcome State Fault Refusal) (r : Refusal) : Bool :=
  match o with
  | .next _ => false
  | .fault _ => false
  | .refused e => e == r

/-- K2 after DECODE, with a budget of `gas`, the controller in `ctl`. -/
def inCall (ctl : Ctl) (gas : Word) : State :=
  { State.reset with
    status := .busy, ctl := ctl, lGas := gas, lGasHasValue := true, lLen := 213, lLenHasValue := true
    rounds := 12, h := hK2, m := mK2, t := tK2, f := true }

/-- A host about to make one access. -/
def hostAt (s : State) (op : HostOp) : State := { s with host := { ops := [op], pc := 0, reads := [] } }

/-- Inputs written for a frame of length 5. -/
def written : State :=
  { State.reset with inLen := 5, inLenHasValue := true, gasBudget := 7, gasBudgetHasValue := true }

/-- Those inputs latched: an operation in DECODE. -/
def started : State := latchInputs written

/-- An operation in DECODE on 213 bytes `b`. -/
def latched (b : Byte) : State :=
  { started with lLen := 213, lBuf := Memory.cellsFrom 0 (List.replicate 213 b) }

/-! ## Well-formedness: the ill-formed terms are refused -/

/-- 30_encoding.md R53, R54: the flag byte is 0x00 or 0x01. -/
theorem test_flag_two_is_ill_formed : (Instr.blake2f 12 hK2 mK2 tK2 0x02).wellFormed = false := by decide

theorem test_flag_eighty_is_ill_formed : (Instr.blake2f 12 hK2 mK2 tK2 0x80).wellFormed = false := by decide

theorem test_legal_flags_are_well_formed :
    (Instr.blake2f 12 hK2 mK2 tK2 0x00).wellFormed = true ∧ (Instr.blake2f 0 hK2 mK2 tK2 0x01).wellFormed = true ∧
      (Instr.start 0x7fffffffffffffff).wellFormed = true := by decide

/-! ## Decoding words written out from the formats -/

/-- K1's field table (95_test_vectors.md section 1, 2.6). -/
theorem test_decode_K2 : decode (.frame 213 frameK2) = .ok (.blake2f 12 hK2 mK2 tK2 0x01) := by decide +kernel

/-- K4: byte 212 is 0x02. -/
theorem test_decode_K4 : decode (.frame 213 (frameK2.set 212 0x02)) = .error .flagNotBool := by decide +kernel

/-- 2.6: the length alone decides. -/
theorem test_decode_wrong_lengths :
    decode (.frame 0 []) = .error .lengthNot213 ∧ decode (.frame 212 []) = .error .lengthNot213 ∧
      decode (.frame 214 []) = .error .lengthNot213 ∧ decode (.frame 0xffffffffffffffff []) = .error .lengthNot213 := by
  decide

/-- 2.6: `rounds` is big-endian. -/
theorem test_rounds_is_big_endian :
    be32 (fun k => [0x0c, 0x00, 0x00, 0x00].getD k 0) 0 = 201326592 ∧
      be32 (fun k => [0x00, 0x00, 0x00, 0x0c].getD k 0) 0 = 12 := by decide

/-- 2.7: command words. -/
theorem test_decode_commands :
    decode (.command 1) = .ok (.start 0) ∧ decode (.command 3) = .ok (.start 1) ∧
      decode (.command 0xfffffffffffffffe) = .error .notStart ∧ decode (.command 0) = .error .notStart := by decide

/-- 30_encoding.md R50 and R56: the same bits as the opcode table numbers them. -/
theorem test_table_words :
    decodeTableWord 64 1 = some (.start 0) ∧ decodeTableWord 64 2 = none ∧
      decodeTableWord 8 2 = none ∧ (decodeTableWord 8 0).isSome = true ∧
      decodeTableWord 1704 0x0c000000 = some (.blake2f 12 (.replicate 8 0) (.replicate 16 0) (.replicate 2 0) 0x00) := by
  decide +kernel

/-- The encoder writes K2's bytes back. -/
theorem test_encode_K2 : encode (.blake2f 12 hK2 mK2 tK2 0x01) = .frame 213 frameK2 := by decide +kernel

/-! ## The datapath -/

/-- 2.1: rotations and wrapping addition. -/
theorem test_rotations :
    rotr64 0x0123456789abcdef 32 = 0x89abcdef01234567 ∧ rotr64 0x0123456789abcdef 24 = 0xabcdef0123456789 ∧
      rotr64 0x0123456789abcdef 16 = 0xcdef0123456789ab ∧ rotr64 0x0123456789abcdef 63 = 0x02468acf13579bde := by decide

/-- 2.1: the 32-bit-half form, the carry among it. -/
theorem test_halves :
    halvesRotr24 (toHalves 0x0123456789abcdef) = ⟨0xabcdef01, 0x23456789⟩ ∧
      halvesAdd (toHalves 0x00000000ffffffff) (toHalves 1) = ⟨1, 0⟩ := by decide

/-- 2.2 G6: the first `G` of K2's round 0. -/
theorem test_mix_G6 :
    let v := mixG (initVector hK2 tK2 true) 0 4 8 12 0x0000000000636261 0
    v[0] = 0xf0c9aa0f86491dea ∧ v[4] = 0xb7defc3d0277e11f ∧ v[8] = 0xee5e0f39647a9fff ∧ v[12] = 0x7772fc2886a76c5f := by
  decide +kernel

/-- 2.3 I3: the seed with saturated counters. -/
theorem test_seed_I3 :
    let v := initVector (.replicate 8 0) (.replicate 2 0xffffffffffffffff) true
    v[7] = 0 ∧ v[8] = 0x6a09e667f3bcc908 ∧ v[12] = 0xaef1ad8052197d2e ∧ v[13] = 0x64fa9773d4c193e0 ∧
      v[14] = 0xe07c265404be4294 ∧ v[15] = 0x5be0cd19137e2179 := by decide +kernel

/-- K2's output (section 1): twelve rounds, so that the rows past row 9 come round again. -/
theorem test_compress_K2 : serialise (compress hK2 mK2 tK2 true 12) =
    bytesOf 0xba80a53f981c4d0d6a2797b69f12f6e94c212f14685ac4b74b12bb6fdbffa2d17d87c5392aab792dc252d5de4533cc9518d38aa8dbf1925ab92386edd4009923 64 := by
  decide +kernel

/-- K3's output: `final` is false. -/
theorem test_compress_K3 : serialise (compress hK2 mK2 tK2 false 12) =
    bytesOf 0x75ab69d3190a562c51aef8d88f1c2775876944407270c42c9844252c26d2875298743e7f6d5ea2f2d3e8d226039cd31b4e426ac4f2d3d666a610c2116fde4735 64 := by
  decide +kernel

/-- K1's output: zero rounds. -/
theorem test_compress_K1 : serialise (compress hK2 mK2 tK2 true 0) =
    bytesOf 0x08c9bcf367e6096a3ba7ca8485ae67bb2bf894fe72f36e3cf1361d5f3af54fa5d282e6ad7f520e511f6c3e2b8c68059b9442be0454267ce079217e1319cde05b 64 := by
  decide +kernel

/-! ## One step of each instruction -/

/-- 2.4 R2: K2's first ROUND step. -/
theorem test_blake2f_round :
    isNext (step { inCall .round 12 with v := initVector hK2 tK2 true }) (fun t =>
      t.v[0] == 0x86b7c1568029bb79 && t.v[15] == 0x2318a24e2140fc64 && t.rc == 1 && t.ctl == .round) = true := by
  decide +kernel

/-- 2.7: a budget of 11 is too small for 12 rounds, a budget of 12 is enough. -/
theorem test_blake2f_gas_boundary :
    isNext (step (inCall .gascheck 11)) (fun t => t.status == .outOfGas && t.ctl == .done && t.gasUsed == 0) = true ∧
      isNext (step (inCall .gascheck 12)) (fun t => t.status == .busy && t.ctl == .init) = true := by decide

/-- 2.7: a write of 3 to `CMD` in IDLE is START. -/
theorem test_start_in_idle :
    isNext (step (hostAt State.reset (.access (.regWrite 2 3)))) (fun t =>
      t.ctl == .decode && t.status == .busy && t.host.pc == 1) = true := by decide

/-- 2.7: a write of 1 to `CMD` while an operation runs changes nothing; the host's turn comes from the schedule. -/
theorem test_start_while_busy :
    isNext (step { hostAt (inCall .round 12) (.access (.regWrite 2 1)) with turns := [.host] }) (fun t =>
      t.ctl == .round && t.lLen == 213 && t.gasUsed == 0) = true := by decide

/-! ## Placing an opcode-table word -/

theorem test_fetch_word_blake2f :
    isNext (step (State.reset.withFetchWord 8 0)) (fun t => t.ctl == .gascheck && t.rounds == 0) = true := by
  decide +kernel

theorem test_fetch_word_start :
    isNext (step (State.reset.withFetchWord 8 1)) (fun t => t.ctl == .decode) = true := by decide

/-! ## Errors, missing values and host accesses -/

/-- 2.8: with a length that is not 213 no byte of the frame is read. -/
theorem test_short_frame : isNext (step started) (fun t => t.status == .outOfRange && t.ctl == .done) = true := by decide

/-- 2.8: with length 213 and no byte written the model faults on byte 212. -/
theorem test_unwritten_flag : isFault (step { started with lLen := 213 }) (.noValue (.lByte 212)) = true := by decide

/-- 2.8: a read of `IN_LEN` faults until the host writes it. -/
theorem test_read_unwritten_length :
    isFault (step (hostAt State.reset (.access (.regRead 0)))) (.noValue .inLen) = true ∧
      isNext (step (hostAt written (.access (.regRead 0)))) (fun t => t.host.reads == [5]) = true := by decide

/-- 2.7: reads of `CMD` and of a reserved number return 0; a write of 7 to `STATUS` is ignored. -/
theorem test_register_map :
    isNext (step (hostAt State.reset (.access (.regRead 2)))) (fun t => t.host.reads == [0]) = true ∧
      isNext (step (hostAt written (.access (.regRead 0xffff)))) (fun t => t.host.reads == [0]) = true ∧
      isNext (step (hostAt written (.access (.regWrite 3 7)))) (fun t => t.status == .idle) = true := by decide

/-- 20_memory.md R30: offset 213 is outside `IN_BUF`, offset 212 inside. -/
theorem test_offsets :
    isRefusal (step (hostAt written (.access (.inWrite 213 1)))) (.outsideByteSpace .inBuf 213) = true ∧
      isNext (step (hostAt written (.access (.inWrite 212 1)))) (fun t => t.inBuf == [(212, 1)]) = true := by decide

/-- 2.8: a reset clears what a running operation left. -/
theorem test_reset_event :
    isNext (step { inCall .round 12 with turns := [.reset] }) (fun t =>
      t.ctl == .idle && t.status == .idle && t.lGasHasValue == false) = true := by decide

/-! ## The bus -/

/-- A bus of one width: the registers from address 0, eight bytes each, `IN_BUF` from 256 and `OUT_BUF` from 512; its lines
are valid and reset. -/
def busOf (width : Nat) (order : Config.ByteOrder) : Config.BusBinding where
  widths := [width]
  aligned := fun address width => address % width == 0
  lane := fun c i =>
    let a := c.address + i
    if a < 40 then some (.registerByte (a / 8) (Fin.ofNat 8 a))
    else if 256 ≤ a ∧ a < 469 then some (.inByte (a - 256))
    else if 512 ≤ a ∧ a < 576 then some (.outByte (a - 512))
    else none
  numericOrder := order
  missing := fun _ => .waits
  accepts := fun c => c.control.head? == some true
  assertsReset := fun c => c.control.getLast? == some true
  readsAtomically := fun _ => true

/-- A write cycle with the transfer valid and no reset. -/
def writeAt (address : Nat) (lanes : List Byte) : Config.BusCycle := ⟨address, true, lanes, [true, false]⟩

/-- A read cycle of `width` lanes. -/
def readAt (address width : Nat) : Config.BusCycle := ⟨address, false, List.replicate width 0, [true, false]⟩

def isPort (o : Host.Outcome BusPort Fault Refusal) (p : BusPort → Bool) : Bool :=
  match o with
  | .next t => p t
  | .fault _ => false
  | .refused _ => false

/-- 20_memory.md R34, R37: 213 in `IN_LEN` over four lanes, the second transfer completing it, and over eight lanes with the
most significant byte first. -/
theorem test_bus_widths :
    (busWrite (busOf 4 .little) [] written (writeAt 0 [0xd5, 0, 0, 0])).2 = [] ∧
      (busWrite (busOf 4 .little) (busWrite (busOf 4 .little) [] written (writeAt 0 [0xd5, 0, 0, 0])).1 written
        (writeAt 4 [0, 0, 0, 0])).2 = [.regWrite 0 213] ∧
      (busWrite (busOf 8 .big) [] written (writeAt 0 [0, 0, 0, 0, 0, 0, 0, 0xd5])).2 = [.regWrite 0 213] := by
  decide +kernel

/-- R37, R36: a width or an address the binding does not have does nothing, as does a cycle that is not valid. -/
theorem test_bus_takes :
    takes (busOf 4 .little) (writeAt 0 [1, 2]) = false ∧ takes (busOf 4 .little) (writeAt 2 [1, 2, 3, 4]) = false ∧
      takes (busOf 4 .little) ⟨0, true, [1, 2, 3, 4], [false, false]⟩ = false ∧
      takes (busOf 4 .little) (writeAt 0 [1, 2, 3, 4]) = true := by decide

/-- A START over the bus, and a reset asserted by a line. -/
theorem test_bus_cycles :
    isPort (busCycle (busOf 8 .little) ⟨written, []⟩ (writeAt 16 [1, 0, 0, 0, 0, 0, 0, 0])) (fun t =>
      t.block.ctl == .decode && t.staged == []) = true ∧
      isPort (busCycle (busOf 8 .little) ⟨started, []⟩ ⟨0, false, [], [false, true]⟩) (fun t =>
        t.block.ctl == .idle && t.block.inLenHasValue == false) = true := by decide +kernel

/-- R34: byte 0 of `GAS_BUDGET` = 7 on a byte-wide bus, in either order. -/
theorem test_bus_read :
    (match busRead (busOf 1 .little) (fun _ => written) (readAt 8 1) with
      | .next out => out == [some 7] | .fault _ => false | .refused _ => false) = true ∧
    (match busRead (busOf 1 .big) (fun _ => written) (readAt 8 1) with
      | .next out => out == [some 0] | .fault _ => false | .refused _ => false) = true := by decide +kernel

/-- A wide transfer that completes `GAS_BUDGET` and `CMD`, the budget on the lower lanes: START latches the new budget (the order
is log 9's). -/
theorem test_bus_two_registers :
    isPort (busCycle { busOf 16 .little with aligned := fun _ _ => true } ⟨written, []⟩
      (writeAt 8 [9, 0, 0, 0, 0, 0, 0, 0, 1, 0, 0, 0, 0, 0, 0, 0])) (fun t =>
        t.block.ctl == .decode && t.block.lGas == 9 && t.staged == []) = true := by decide +kernel

/-- A binding may tell the directions of one address apart: `CMD` on a write, `STATUS` on a read (10_state.md R11 leaves the
addresses to it). -/
theorem test_bus_direction :
    let b : Config.BusBinding := { busOf 1 .little with
      lane := fun c i => if c.isWrite then some (.registerByte 2 (Fin.ofNat 8 i)) else some (.registerByte 3 (Fin.ofNat 8 i))
      missing := fun _ => .zero }
    (busWrite b [] written (writeAt 0 [1])).2 = [.regWrite 2 1] ∧
    (match busRead b (fun _ => started) (readAt 0 1) with
      | .next out => out == [some 1] | .fault _ => false | .refused _ => false) = true := by decide +kernel

/-- A read cycle that asserts reset answers no lane (log 9). -/
theorem test_bus_read_in_reset :
    (match busRead (busOf 1 .little) (fun _ => written) ⟨8, false, [0], [true, true]⟩ with
      | .next out => out == [] | .fault _ => false | .refused _ => false) = true := by decide

/-! ## The host's notation -/

/-- 30_encoding.md R61: a label, register names, a comment. -/
theorem test_parse : parseProgram "x: RD STATUS ; c".toList = some [.label ['x'], .rd 3] := by decide +kernel

/-- A `WRBUF` line with and without bytes (log 18 for the second). -/
theorem test_parse_wrbuf : parseProgram "WRBUF 3, 07ff\nWRBUF 0,".toList = some [.wrbuf 3 [0x07, 0xff], .wrbuf 0 []] := by
  decide +kernel

/-- R61: a branch goes to its label's statement. -/
theorem test_assemble_branch : assembleText "a: WAIT\nBR.NE 2 a".toList = some [.wait, .branch (.ne 2) 0] ∧
    assemble [.label ['a'], .wait, .br (.ne 2) ['a']] = some [.wait, .branch (.ne 2) 0] := by decide +kernel

/-- R62: the expansion of `CALL`. -/
theorem test_assemble_call : assemble [.call (.raw [0x00, 0x07]) 9] =
    some [.access (.regWrite 0 2), .access (.inWrite 0 0x00), .access (.inWrite 1 0x07), .access (.regWrite 1 9),
      .access (.regWrite 2 1), .wait] := by decide

/-! ## Witnesses: states and operands that meet each statement's hypotheses -/

/-- Every byte of `latched b` has the value `b`. -/
theorem latched_read (b : Byte) (k : Nat) (hk : k < 213) : (latched b).lBuf.read .lBuf k = some b := by
  show Memory.read .lBuf (Memory.cellsFrom 0 (List.replicate 213 b)) k = some b
  rw [Memory.read, Laws.find_cellsFrom, if_pos (Nat.zero_le k), Nat.sub_zero,
    List.getElem?_eq_getElem (by rw [List.length_replicate]; exact hk), List.getElem_replicate]

/-- An all-zero frame decodes. -/
theorem latched_decodes : (latched 0).decodeLatched =
    .ok (frameFields (fun k => ((latched 0).lBuf.read .lBuf k).getD 0#8) 0x00#8) := by
  have present : firstMissing ((latched 0).lBuf.read .lBuf) 212 = none :=
    (Laws.firstMissing_eq_none _ _).2 fun k hk => by rw [latched_read 0 k (by omega)]; rfl
  have flag : (latched 0).lBuf.read .lBuf 212 = some 0x00#8 := latched_read 0 212 (by omega)
  have length : (latched 0).lLen = 213#64 := rfl
  unfold State.decodeLatched decodeFrame
  rw [length, flag, present]
  rfl

theorem witness_DecodeAfterEncode :
    (Instr.blake2f 0xffffffff hK2 mK2 tK2 0x01).wellFormed = true ∧ (Instr.start 0).wellFormed = true := by decide

theorem witness_EncodeAfterDecode :
    decode (.command 3) = .ok (.start 1) ∧ frameK2.length = 213 ∧
      decode (.frame 213 frameK2) = .ok (.blake2f 12 hK2 mK2 tK2 0x01) :=
  ⟨by decide, by decide +kernel, test_decode_K2⟩

theorem witness_LegalFramesAreExactlyThese : ∃ (len : Word) (byte : Nat → Byte),
    len = 213#64 ∧ (byte 212 = 0x00#8 ∨ byte 212 = 0x01#8) := ⟨213, fun _ => 1, rfl, .inr rfl⟩

theorem witness_WrongLengthReadsNoByte : (212 : Word) ≠ 213#64 ∧ (214 : Word) ≠ 213#64 := by decide

theorem witness_FlagByteAloneDecides : ∃ byte? : Nat → Option Byte,
    byte? 212 = some 0x02#8 ∧ (0x02#8 : Byte) ≠ 0x00#8 ∧ (0x02#8 : Byte) ≠ 0x01#8 :=
  ⟨fun _ => some 2, rfl, by decide, by decide⟩

theorem witness_FieldBitPositions : ∃ byte : Nat → Byte, byte 212 = 0x00#8 ∨ byte 212 = 0x01#8 := ⟨fun _ => 0, .inl rfl⟩

theorem witness_CommandWordIsStartByBitZero :
    (1 : Word).getLsbD 0 = true ∧ (0xfffffffffffffffe : Word).getLsbD 0 = false := by decide

theorem witness_StructuredFrameAssembles : ([] : List Word).length ≤ 16 ∧ (List.replicate 16 (0 : Word)).length ≤ 16 := by
  decide

theorem witness_RotationMovesBits : (0 < 1 ∧ 1 < 64 ∧ 63 < 64) ∧ (0 < 63 ∧ 63 < 64 ∧ 0 < 64) := by decide

theorem witness_MixFollowsItsEightSteps : ([0, 4, 8, 12] : List (Fin 16)).Nodup := by decide

theorem witness_HalfRoundsRunInAnyOrder :
    List.Perm ([3, 2, 1, 0] : List (Fin 8)) [0, 1, 2, 3] ∧ List.Perm ([5, 4, 7, 6] : List (Fin 8)) [4, 5, 6, 7] := by decide

theorem witness_ScheduleRepeatsEveryTenRounds :
    (0 : Word32).toNat + 10 < 2 ^ 32 ∧ (4294967285 : Word32).toNat + 10 < 2 ^ 32 := by decide

theorem witness_StartLatchesAndClears : State.reset.ctl = .idle ∧ (inCall .done 0).ctl = .done := ⟨rfl, rfl⟩

theorem witness_StartWhileBusyIsDropped : started.ctl = .decode ∧ (inCall .gascheck 0).ctl = .gascheck ∧
    (inCall .init 0).ctl = .init ∧ (inCall .round 0).ctl = .round ∧ (inCall .final 0).ctl = .final :=
  ⟨rfl, rfl, rfl, rfl, rfl⟩

theorem witness_StartLeavesTheRest :
    exec (.start 0) written = .next started ∧ exec (.start 0) started = .next started ∧ started.ctl.busy = true :=
  ⟨rfl, rfl, rfl⟩

theorem witness_DecodeStepFillsTheCall :
    started.ctl = .decode ∧ (Instr.blake2f 12 hK2 mK2 tK2 0x00).wellFormed = true := by decide

theorem witness_GasGateComparesBudgetWithRounds :
    (inCall .gascheck 11).ctl = .gascheck ∧ (inCall .gascheck 11).lGasHasValue = true ∧
      (inCall .gascheck 11).lGas.toNat < (inCall .gascheck 11).rounds.toNat ∧
      ¬ (inCall .gascheck 12).lGas.toNat < (inCall .gascheck 12).rounds.toNat := by decide

theorem witness_InitStepSeedsAndBranches : (inCall .init 12).ctl = .init ∧ (inCall .init 12).rounds ≠ 0 ∧
    ({ inCall .init 12 with rounds := 0 } : State).rounds = 0 := by decide

theorem witness_RoundStepMixesOnce : (inCall .round 12).ctl = .round ∧
    ({ inCall .round 12 with rc := 11 } : State).rc.toNat < (inCall .round 12).rounds.toNat := by decide

theorem witness_FinalStepWritesTheResult :
    (inCall .final 12).ctl = .final ∧ (inCall .final 12).outBuf.wf .outBuf = true := by decide

theorem witness_WaitingControllerDoesNothing : ∃ s : State, s.ctl = .done ∧ s.nextTurn = .controller :=
  ⟨{ inCall .done 0 with turns := [.controller] }, rfl, rfl⟩

theorem witness_Blake2fLeavesTheRest : exec (.blake2f 12 hK2 mK2 tK2 0x01) State.reset = .next State.reset ∧
    ∃ u, exec (.blake2f 12 hK2 mK2 tK2 0x01) (inCall .final 12) = .next u := ⟨rfl, _, rfl⟩

theorem witness_IllegalFrameRaisesOutOfRange :
    (started.nextTurn = .controller ∧ started.ctl = .decode ∧ started.lLenHasValue = true ∧ started.lLen ≠ 213#64) ∧
    ((latched 2).nextTurn = .controller ∧ (latched 2).ctl = .decode ∧ (latched 2).lLenHasValue = true ∧
      ∃ b, (latched 2).lBuf.read .lBuf 212 = some b ∧ b ≠ 0x00#8 ∧ b ≠ 0x01#8) :=
  ⟨⟨rfl, rfl, rfl, by decide⟩, rfl, rfl, rfl, 2, latched_read 2 212 (by omega), by decide, by decide⟩

/-- One state for each clause; in the third only byte 212 has a value. -/
theorem witness_StepFaultsOnMissingValues :
    (∃ s : State, s.nextTurn = .controller ∧ s.ctl = .decode ∧ s.lLenHasValue = false) ∧
    (∃ s : State, s.nextTurn = .controller ∧ s.ctl = .decode ∧ s.lLenHasValue = true ∧ s.lLen = 213#64 ∧
      s.lBuf.read .lBuf 212 = none) ∧
    (∃ s : State, s.nextTurn = .controller ∧ s.ctl = .decode ∧ s.lLenHasValue = true ∧ s.lLen = 213#64 ∧
      s.lBuf.read .lBuf 212 = some 0x01#8 ∧ s.lBuf.read .lBuf 0 = none ∧ ∀ j, j < 0 → s.lBuf.read .lBuf j ≠ none) ∧
    (∃ s : State, s.nextTurn = .controller ∧ s.ctl = .gascheck ∧ s.lGasHasValue = false) :=
  ⟨⟨{ State.reset with ctl := .decode }, rfl, rfl, rfl⟩, ⟨{ started with lLen := 213 }, rfl, rfl, rfl, rfl, rfl⟩,
    ⟨{ started with lLen := 213, lBuf := [(212, 1)] }, rfl, rfl, rfl, rfl, rfl, rfl, fun j hj => absurd hj (Nat.not_lt_zero j)⟩,
    ⟨{ State.reset with ctl := .gascheck }, rfl, rfl, rfl⟩⟩

theorem witness_ReadyControllerAlwaysSteps : started.nextTurn = .controller ∧ LatchReady started ∧
    (latched 0).nextTurn = .controller ∧ LatchReady (latched 0) :=
  ⟨rfl, ⟨rfl, rfl, fun h => absurd h (by decide)⟩, rfl, ⟨rfl, rfl, fun _ k hk => by rw [latched_read 0 k hk]; rfl⟩⟩

theorem witness_StepRunsTheDecodedInstruction :
    (∃ i, (latched 0).nextTurn = .controller ∧ (latched 0).ctl = .decode ∧ (latched 0).lLenHasValue = true ∧
      decodeFrame (latched 0).lLen ((latched 0).lBuf.read .lBuf) = .ok i) ∧
    ((inCall .round 12).nextTurn = .controller ∧ (inCall .round 12).ctl = .round) ∧
    (∃ s : State, s.nextTurn = .host ∧ s.host.ops[s.host.pc]? = some (.access (.regWrite 2 3)) ∧
      decode (.command 3) = .ok (.start 1)) :=
  ⟨⟨_, rfl, rfl, rfl, latched_decodes⟩, ⟨rfl, rfl⟩, ⟨hostAt written (.access (.regWrite 2 3)), rfl, rfl, by decide⟩⟩

theorem witness_CommandWithoutStartDoesNothing : ∃ s : State, s.nextTurn = .host ∧
    s.host.ops[s.host.pc]? = some (.access (.regWrite 2 0xfffffffffffffffe)) ∧
    (0xfffffffffffffffe : Word).getLsbD 0 = false :=
  ⟨hostAt written (.access (.regWrite 2 0xfffffffffffffffe)), rfl, rfl, by decide⟩

theorem witness_ControllerMovesOnlyAlongItsEdges : ∃ s t : State, step s = .next t ∧ t.ctl ≠ s.ctl :=
  ⟨inCall .gascheck 12, _, rfl, by decide⟩

theorem witness_OnlyResetStopsAnOperation : ∃ s t : State, s.ctl.busy = true ∧ step s = .next t ∧ s.nextTurn ≠ .reset :=
  ⟨inCall .gascheck 11, _, rfl, rfl, by decide⟩

theorem witness_HostCannotDisturbAnOperation :
    ∃ s t : State, s.ctl.busy = true ∧ s.nextTurn = .host ∧ step s = .next t ∧ t.inLen = 9 :=
  ⟨{ hostAt started (.access (.regWrite 0 9)) with turns := [.host] }, _, rfl, rfl, rfl, rfl⟩

theorem witness_BlockNeverWritesTheInputs : ∃ s t : State, s.nextTurn = .controller ∧ step s = .next t :=
  ⟨inCall .gascheck 12, _, rfl, rfl⟩

theorem witness_ResultsStayInDone : ∃ s t : State, s.ctl = .done ∧ step s = .next t ∧ t.ctl = .done :=
  ⟨hostAt (inCall .done 0) (.access (.regRead 3)), _, rfl, rfl, rfl⟩

theorem witness_OutputChangesOnlyAtStartFinalReset : ∃ s t : State, step s = .next t ∧
    ∃ k, t.outBuf.read .outBuf k ≠ s.outBuf.read .outBuf k :=
  ⟨{ inCall .done 0 with outBuf := [(63, 0xff)], turns := [.reset] }, _, rfl, 63, by decide⟩

theorem witness_ResetFromAnyState : ({ inCall .round 12 with turns := [.reset] } : State).nextTurn = .reset := rfl

theorem witness_RegisterReadTable : (written.inLenHasValue = true ∧ State.reset.inLenHasValue = false ∧
    written.gasBudgetHasValue = true ∧ State.reset.gasBudgetHasValue = false ∧ 5 ≤ 5) ∧
    (∃ s : State, s.nextTurn = .host ∧ s.host.ops[s.host.pc]? = some (.access (.regRead 0)) ∧ s.regRead 0 = .ok 5) ∧
    (∃ s : State, s.nextTurn = .host ∧ s.host.ops[s.host.pc]? = some (.access (.regRead 1)) ∧
      s.regRead 1 = .error (.noValue .gasBudget)) :=
  ⟨by decide, ⟨hostAt written (.access (.regRead 0)), rfl, rfl, rfl⟩,
    ⟨hostAt State.reset (.access (.regRead 1)), rfl, rfl, rfl⟩⟩

theorem witness_HostReadsChangeNothing : ∀ a : Access, a = .regRead 3 ∨ a = .inRead 212 ∨ a = .outRead 63 →
    ∃ s t : State, s.nextTurn = .host ∧ s.host.ops[s.host.pc]? = some (.access a) ∧ step s = .next t := by
  intro a ha
  refine ⟨hostAt { written with inBuf := [(212, 7)] } (.access a), ?_⟩
  rcases ha with rfl | rfl | rfl <;> exact ⟨_, rfl, rfl, rfl⟩

theorem witness_ByteReadsAnswerTheByte :
    (∃ s : State, s.nextTurn = .host ∧ s.host.ops[s.host.pc]? = some (.access (.inRead 212)) ∧
      s.inBuf.read .inBuf 212 = some 7) ∧
    (∃ s : State, s.nextTurn = .host ∧ s.host.ops[s.host.pc]? = some (.access (.inRead 0)) ∧ s.inBuf.read .inBuf 0 = none) ∧
    (∃ s : State, s.nextTurn = .host ∧ s.host.ops[s.host.pc]? = some (.access (.outRead 63)) ∧
      s.outBuf.read .outBuf 63 = some 0) :=
  ⟨⟨hostAt { written with inBuf := [(212, 7)] } (.access (.inRead 212)), rfl, rfl, rfl⟩,
    ⟨hostAt written (.access (.inRead 0)), rfl, rfl, rfl⟩, ⟨hostAt written (.access (.outRead 63)), rfl, rfl, rfl⟩⟩

theorem witness_RegisterWritesStoreOrAreIgnored : ∃ s : Nat → State, ∀ n, n = 0 ∨ n = 1 ∨ n = 3 →
    (s n).nextTurn = .host ∧ (s n).host.ops[(s n).host.pc]? = some (.access (.regWrite n 9)) ∧ n ≠ 2 :=
  ⟨fun n => hostAt written (.access (.regWrite n 9)), fun n hn => ⟨rfl, rfl, by omega⟩⟩

theorem witness_ByteWritesStoreOrAreIgnored : ∃ s : Access → State, ∀ a, (s a).nextTurn = .host ∧
    (s a).inBuf.wf .inBuf = true ∧ (s a).host.ops[(s a).host.pc]? = some (.access a) ∧ 212 < 213 ∧ 63 < 64 :=
  ⟨fun a => hostAt written (.access a), fun _ => ⟨rfl, rfl, rfl, by decide, by decide⟩⟩

theorem witness_AccessOutsideTheSpacesIsRefused : ∃ s : Access → State, ∀ a, (s a).nextTurn = .host ∧
    (s a).host.ops[(s a).host.pc]? = some (.access a) ∧ 213 ≤ 213 ∧ 64 ≤ 64 :=
  ⟨fun a => hostAt written (.access a), fun _ => ⟨rfl, rfl, by decide, by decide⟩⟩

theorem witness_WaitRepeatsUntilTerminal :
    (∃ s : State, s.nextTurn = .host ∧ s.host.ops[s.host.pc]? = some .wait ∧ s.statusWord = 0) ∧
    (∃ s : State, s.nextTurn = .host ∧ s.host.ops[s.host.pc]? = some .wait ∧ s.statusWord = 4) :=
  ⟨⟨hostAt written .wait, rfl, rfl, rfl⟩,
    ⟨hostAt { written with status := .outOfGas, ctl := .done } .wait, rfl, rfl, rfl⟩⟩

theorem witness_BranchFollowsTheLastRead : ∃ s : State, s.nextTurn = .host ∧
    s.host.ops[s.host.pc]? = some (.branch (.eq 1) 0) ∧ s.host.reads = [1] :=
  ⟨{ written with host := { ops := [.branch (.eq 1) 0], pc := 0, reads := [1] } }, rfl, rfl, rfl⟩

theorem witness_CallExpandsToFiveStatements : (FrameSyntax.raw [0x00, 0x07]).bytes = some [0x00, 0x07] ∧
    (FrameSyntax.blake2f 12 hK2 [0x0000000000636261] tK2 true).bytes = some frameK2 := by decide +kernel

/-- A bus of one width on which missing bytes are taken as `m`, and reads are not atomic. -/
def narrowBus (width : Nat) (m : Config.MissingByte) : Config.BusBinding :=
  { busOf width .little with missing := fun _ => m, readsAtomically := fun _ => false }

/-- The bytes a cycle carries for a register, lane by lane. -/
theorem carriesBytesOf_of_lanes {b : Config.BusBinding} {c : Config.BusCycle} {n : Nat} {w : Word}
    (h : ∀ (i : Nat) (hi : i < c.lanes.length) (p : Fin 8), b.lane c i = some (.registerByte n p) →
      (numericBytes b.numericOrder w)[p.val]? = some c.lanes[i]) : CarriesBytesOf b c n w := by
  intro i x p hx hl
  obtain ⟨hi, rfl⟩ := List.getElem?_eq_some_iff.1 hx
  exact h i hi p hl

/-- Register writes: complete over eight lanes with the most significant byte first; complete over four lanes with the other
bytes taken as zero, or as held (`IN_LEN` holds 5); waiting for the other four, or for those of a register without a value.
The cycles are `WritesNow`, and one of them sends `CMD` a word with bit 0 clear. -/
theorem witness_BusBytesCarryTheNumber_writes :
    (WritesNow (busOf 8 .big) (writeAt 0 [0, 0, 0, 0, 0, 0, 0, 0xd5]) ∧
      CarriesBytesOf (busOf 8 .big) (writeAt 0 [0, 0, 0, 0, 0, 0, 0, 0xd5]) 0 213 ∧
      WriteComplete (busOf 8 .big) [] written (writeAt 0 [0, 0, 0, 0, 0, 0, 0, 0xd5]) 0 213) ∧
    (WritesNow (narrowBus 4 .zero) (writeAt 16 [2, 0, 0, 0]) ∧ CarriesBytesOf (narrowBus 4 .zero) (writeAt 16 [2, 0, 0, 0]) 2 2 ∧
      WriteComplete (narrowBus 4 .zero) [] written (writeAt 16 [2, 0, 0, 0]) 2 2 ∧ (2 : Word).getLsbD 0 = false) ∧
    (WritesNow (narrowBus 4 .held) (writeAt 4 [1, 0, 0, 0]) ∧
      CarriesBytesOf (narrowBus 4 .held) (writeAt 4 [1, 0, 0, 0]) 0 0x100000005 ∧
      WriteComplete (narrowBus 4 .held) [] written (writeAt 4 [1, 0, 0, 0]) 0 0x100000005) ∧
    (CarriesBytesOf (narrowBus 4 .waits) (writeAt 0 [0xd5, 0, 0, 0]) 0 213 ∧
      WriteWaits (narrowBus 4 .waits) [] written (writeAt 0 [0xd5, 0, 0, 0]) 0) ∧
    WriteWaits (narrowBus 4 .held) [] State.reset (writeAt 0 [0xd5, 0, 0, 0]) 0 := by
  unfold WritesNow WriteComplete WriteWaits Reaches
  refine ⟨⟨by decide, carriesBytesOf_of_lanes (by decide), fun p => .inl ⟨p.val, ?_⟩⟩,
    ⟨by decide, carriesBytesOf_of_lanes (by decide), fun p => ?_, by decide⟩,
    ⟨by decide, carriesBytesOf_of_lanes (by decide), fun p => ?_⟩,
    ⟨carriesBytesOf_of_lanes (by decide), 7, by decide, rfl, .inl rfl⟩, 7, by decide, rfl, .inr ⟨rfl, _, rfl⟩⟩
  · revert p
    decide
  · by_cases h : p.val < 4
    · exact .inl ⟨p.val, h, by revert p; decide⟩
    · exact .inr (.inr ⟨rfl, .inl ⟨rfl, by revert p; decide⟩⟩)
  · by_cases h : 4 ≤ p.val
    · exact .inl ⟨p.val - 4, by have := p.isLt; simp only [writeAt, List.length_cons, List.length_nil]; omega, by revert p; decide⟩
    · exact .inr (.inr ⟨rfl, .inr ⟨rfl, 5, rfl, by revert p; decide⟩⟩)

/-- A wide transfer: the upper four bytes of one register and the lower four of the next are all it reaches. -/
theorem witness_BusBytesCarryTheNumber_untouched :
    ∀ p, ¬ Reaches (busOf 8 .little) (writeAt 4 [1, 2, 3, 4, 5, 6, 7, 8]) (.registerByte 2 p) := by
  unfold Reaches
  decide

/-- A cycle whose lanes reach one register and nothing else, some of them nothing at all. -/
theorem witness_BusBytesCarryTheNumber_partly :
    WritesNow (narrowBus 8 .zero) (writeAt 40 [1, 2, 3, 4, 5, 6, 7, 8]) ∧
    ∃ b : Config.BusBinding, WritesNow b (writeAt 36 [0, 0, 0, 1, 5, 6, 7, 8]) ∧
      Reaches b (writeAt 36 [0, 0, 0, 1, 5, 6, 7, 8]) (.registerByte 4 7) ∧
      b.lane (writeAt 36 [0, 0, 0, 1, 5, 6, 7, 8]) 4 = none ∧
      (∀ target, Reaches b (writeAt 36 [0, 0, 0, 1, 5, 6, 7, 8]) target → ∃ p, target = .registerByte 4 p) ∧
      CarriesBytesOf b (writeAt 36 [0, 0, 0, 1, 5, 6, 7, 8]) 4 0x0100000000000000 ∧
      WriteComplete b [] written (writeAt 36 [0, 0, 0, 1, 5, 6, 7, 8]) 4 0x0100000000000000 := by
  refine ⟨⟨rfl, by decide, rfl⟩, { narrowBus 8 .zero with aligned := fun _ _ => true }, ⟨rfl, by decide, rfl⟩,
    ⟨3, by decide, by decide⟩, by decide, ?_, carriesBytesOf_of_lanes (by decide), fun p => ?_⟩
  · rintro target ⟨i, hi, h⟩
    have lanes : ∀ i < 8, (narrowBus 8 .zero).lane (writeAt 36 [0, 0, 0, 1, 5, 6, 7, 8]) i = none ∨
        ∃ p, (narrowBus 8 .zero).lane (writeAt 36 [0, 0, 0, 1, 5, 6, 7, 8]) i = some (.registerByte 4 p) := by
      decide
    rcases lanes i hi with e | ⟨p, e⟩
    · cases e.symm.trans h
    · exact ⟨p, (Option.some.inj (e.symm.trans h)).symm⟩
  · by_cases h : 4 ≤ p.val
    · exact .inl ⟨p.val - 4, by have := p.isLt; simp only [writeAt, List.length_cons, List.length_nil]; omega, by revert p; decide⟩
    · exact .inr (.inr ⟨rfl, .inl ⟨rfl, by revert p; decide⟩⟩)

/-- A host step at an access, for the clause that an access over the bus is that step; accesses that go on and that are refused. -/
theorem witness_BusBytesCarryTheNumber_accesses :
    ((hostAt written (.access (.regWrite 2 1))).nextTurn = .host ∧
      (hostAt written (.access (.regWrite 2 1))).host.ops[0]? = some (.access (.regWrite 2 1))) ∧
    (∃ t, busAccesses written [.inWrite 212 7, .regWrite 1 9] = .next t) ∧
    busAccesses written [.inWrite 213 7] = .refused (.outsideByteSpace .inBuf 213) ∧
    busAccesses State.reset [.regRead 0] = .fault (.noValue .inLen) :=
  ⟨⟨rfl, rfl⟩, ⟨_, rfl⟩, rfl, rfl⟩

/-- Byte space lanes: offsets 212 and 63, the last of each space, and, on another bus, offset 213, the first outside. -/
theorem witness_BusBytesCarryTheNumber_bytes :
    (WritesNow (busOf 1 .little) (writeAt 468 [7]) ∧ written.inBuf.wf .inBuf = true ∧
      (busOf 1 .little).lane (writeAt 468 [7]) 0 = some (.inByte 212) ∧ LaneInside (busOf 1 .little) (writeAt 468 [7]) 0 ∧
      ∀ n p, ¬ Reaches (busOf 1 .little) (writeAt 468 [7]) (.registerByte n p)) ∧
    ((busOf 1 .little).lane (writeAt 575 [7]) 0 = some (.outByte 63) ∧ LaneInside (busOf 1 .little) (writeAt 575 [7]) 0) ∧
    ∃ b : Config.BusBinding, WritesNow b (writeAt 469 [7]) ∧ b.lane (writeAt 469 [7]) 0 = some (.inByte 213) := by
  refine ⟨⟨⟨rfl, by decide, rfl⟩, rfl, rfl, ⟨?_, ?_⟩, ?_⟩, ⟨rfl, ?_, ?_⟩,
    { busOf 1 .little with lane := fun c _ => some (.inByte (c.address - 256)) }, ⟨rfl, by decide, rfl⟩, rfl⟩
  · rintro k h
    simp [busOf, writeAt] at h
    omega
  · rintro k h
    simp [busOf, writeAt] at h
  · rintro n p ⟨i, hi, h⟩
    obtain rfl : i = 0 := by simpa [writeAt] using hi
    simp [busOf, writeAt] at h
  · rintro k h
    simp [busOf, writeAt] at h
  · rintro k h
    simp [busOf, writeAt] at h
    omega

/-- Reads: a read split by a host write between its two lanes, the lanes seeing two numbers; a register without a value; the
last byte of `OUT_BUF`. -/
theorem witness_BusBytesCarryTheNumber_reads :
    (∃ (b : Config.BusBinding) (c : Config.BusCycle) (seen : Nat → State), b.assertsReset c = false ∧ takes b c = true ∧
      c.isWrite = false ∧ b.readsAtomically c = false ∧ c.lanes.length = 2 ∧ (seenBy b seen c 0).inLen ≠ (seenBy b seen c 1).inLen ∧
      LaneShows b.numericOrder (seenBy b seen c 0) (some 5) (b.lane c 0) ∧
      LaneShows b.numericOrder (seenBy b seen c 1) (some 1) (b.lane c 1)) ∧
    (∃ (b : Config.BusBinding) (c : Config.BusCycle), b.assertsReset c = false ∧ takes b c = true ∧ c.isWrite = false ∧
      0 < c.lanes.length ∧
      b.lane c 0 = some (.registerByte 0 0) ∧
      (seenBy b (fun _ => State.reset) c 0).regRead 0 = .error (.noValue .inLen)) ∧
    LaneShows .little written (some 0) ((busOf 1 .little).lane (readAt 575 1) 0) :=
  ⟨⟨narrowBus 2 .waits, readAt 0 2, fun i => { written with inLen := if i = 0 then 5 else 0x100 }, rfl, by decide, rfl, rfl, rfl,
      by decide, ⟨5, rfl, by decide⟩, ⟨0x100, rfl, by decide⟩⟩,
    ⟨busOf 1 .little, readAt 0 1, rfl, by decide, rfl, by decide, rfl, rfl⟩, by decide, by decide⟩

/-- A cycle that asserts reset, and one that does nothing; the reads above assert none. -/
theorem witness_BusBytesCarryTheNumber_others :
    (busOf 1 .little).assertsReset ⟨0, false, [], [false, true]⟩ = true ∧
      (busOf 1 .little).assertsReset (readAt 0 2) = false ∧ takes (busOf 1 .little) (readAt 0 2) = false := by decide

theorem witness_InstancesAreIndependent :
    (∃ t, [inCall .gascheck 12, State.reset][0]? = some (inCall .gascheck 12) ∧ step (inCall .gascheck 12) = .next t) ∧
    ([({ State.reset with ctl := .decode } : State)][0]? = some { State.reset with ctl := .decode } ∧
      step { State.reset with ctl := .decode } = .fault (.noValue .lLen)) ∧
    ([hostAt written (.access (.inRead 213))][0]? = some (hostAt written (.access (.inRead 213))) ∧
      step (hostAt written (.access (.inRead 213))) = .refused (.outsideByteSpace .inBuf 213)) :=
  ⟨⟨_, rfl, rfl⟩, ⟨rfl, rfl⟩, ⟨rfl, rfl⟩⟩

theorem witness_GasMonotonicity : ∃ (byte? : Nat → Option Byte) (n : Word32) (h : Vector Word 8) (m : Vector Word 16)
    (t : Vector Word 2) (f : Byte), decodeFrame 213#64 byte? = .ok (.blake2f n h m t f) :=
  ⟨_, _, _, _, _, _, latched_decodes⟩

/-- A busy state with the invariant. -/
theorem started_inv : Inv started := by
  constructor <;> simp [started, written, Ctl.busy, State.reset]

theorem witness_EveryStepKeepsTheInvariant : Inv started ∧ ∃ t, step started = .next t := ⟨started_inv, _, rfl⟩

theorem witness_BusyShowsNoResult : Inv started ∧ started.statusWord = 1 := ⟨started_inv, rfl⟩

theorem witness_StartReachesTheResultOfRun : ∃ s : State, s.turns = [] ∧ s.ctl = .idle ∧ s.inBuf.wf .inBuf = true ∧
    BootReady s ∧ s.host.ops[s.host.pc]? = some (.access (.regWrite 2 1)) ∧ (1 : Word).getLsbD 0 = true :=
  ⟨hostAt written (.access (.regWrite 2 1)), rfl, rfl, rfl, ⟨rfl, rfl, fun h => absurd h (by decide)⟩, rfl, by decide⟩

/-- Two operations with the same latches, the second over other inputs, another host program and another `V`. -/
theorem witness_ResultDependsOnLatchesOnly : ∃ (s₁ s₂ t₁ : State), s₁ ≠ s₂ ∧ s₁.turns = [] ∧ s₂.turns = [] ∧
    s₁.ctl = .decode ∧ s₂.ctl = .decode ∧ s₁.outBuf = [] ∧ s₂.outBuf = [] ∧ s₁.gasUsed = 0 ∧ s₂.gasUsed = 0 ∧
    s₁.lLen = s₂.lLen ∧ s₁.lLenHasValue = s₂.lLenHasValue ∧ s₁.lGas = s₂.lGas ∧ s₁.lGasHasValue = s₂.lGasHasValue ∧
    (∀ k, s₁.lBuf.read .lBuf k = s₂.lBuf.read .lBuf k) ∧ core.run 1 s₁ = .next t₁ ∧ t₁.ctl = .done ∧
    ∀ (k : Nat) (u : State), k < 1 → core.run k s₁ = .next u → u.ctl ≠ .done := by
  refine ⟨started, { hostAt started .wait with inLen := 9, v := Vector.replicate 16 1 }, raise .outOfRange started,
    ?_, rfl, rfl, rfl, rfl, rfl, rfl, rfl, rfl, rfl, rfl, rfl, rfl, fun k => rfl, rfl, rfl, ?_⟩
  · intro h
    exact absurd (congrArg State.inLen h) (by decide)
  · intro k u hk hu
    obtain rfl : k = 0 := by omega
    cases hu
    decide

theorem witness_CallComputesRun : (hostAt written .wait).turns = [] ∧ (hostAt written .wait).ctl = .idle ∧
    (hostAt written .wait).inBuf.wf .inBuf = true ∧ (FrameSyntax.raw [0x00, 0x07]).bytes = some [0x00, 0x07] ∧
    ([0x00, 0x07] : List Byte).length < 2 ^ 64 ∧
    (FrameSyntax.blake2f 12 hK2 [0x0000000000636261] tK2 true).bytes = some frameK2 ∧ frameK2.length < 2 ^ 64 :=
  ⟨rfl, rfl, rfl, rfl, by decide, witness_CallExpandsToFiveStatements.2, by decide +kernel⟩

end Sys2Proof.Tests
end

section
/-! SUPPORT. Every step keeps the invariant: one lemma per update of the state, assembled over the cases of a step. -/

namespace Sys2Proof.Proofs

open Sys2Proof.Machine Sys2Proof.Laws

/-! ## Small equations of the model's functions -/

/-- The final-flag byte is recovered from the bit that `F` keeps (30_encoding.md R53, R60). -/
theorem flagByte_getLsbD_of_legal {f : Byte} (hf : legalFlag f = true) : flagByte (f.getLsbD 0) = f := by
  rcases (legalFlag_iff f).1 hf with rfl | rfl <;> rfl

theorem flagByte_getLsbD (final : Bool) : (flagByte final).getLsbD 0 = final := by
  cases final <;> rfl

theorem run_of_decoded {len : Word} {byte? : Nat → Option Byte} {i : Instr} (gas : Word)
    (h : decodeFrame len byte? = .ok i) : run len byte? gas = runCall gas i := by
  simp [run, h]

theorem run_of_rejected {len : Word} {byte? : Nat → Option Byte} {e : Reject} (gas : Word)
    (h : decodeFrame len byte? = .error e) (he : ∀ k, e ≠ .noByte k) :
    run len byte? gas = some ⟨.outOfRange, 0, zeroOutput⟩ := by
  cases e with
  | noByte k => exact absurd rfl (he k)
  | lengthNot213 => simp [run, h]
  | flagNotBool => simp [run, h]
  | notStart => simp [run, h]

theorem runCall_currentCall_of_lt {s : State} {gas : Word} (h : gas < gasCost s.rounds) :
    runCall gas s.currentCall = some ⟨.outOfGas, 0, zeroOutput⟩ := by
  simp [runCall, State.currentCall, h]

theorem runCall_currentCall_of_not_lt {s : State} {gas : Word} (h : ¬ gas < gasCost s.rounds) :
    runCall gas s.currentCall =
      some ⟨.success, gasCost s.rounds, serialise (compress s.h s.m s.t s.f s.rounds)⟩ := by
  simp only [runCall, State.currentCall, if_neg h, flagByte_getLsbD]

theorem runRounds_rc_succ {v m : Vector Word 16} {rc bound : Word32} (h : rc.toNat < bound.toNat) :
    runRounds v m (rc + 1).toNat = round (runRounds v m rc.toNat) m rc := by
  have := bound.isLt
  have step : (rc + 1).toNat = rc.toNat + 1 := by bv_omega
  rw [step, runRounds, BitVec.ofNat_toNat, BitVec.setWidth_eq]

theorem outBytes_of_clear {s : State} (h : s.outBuf = []) : s.outBytes = zeroOutput := by
  rw [State.outBytes, zeroOutput, List.map_congr_left fun k _ => outByte_clear h k, List.map_const', List.length_range]
  rfl

theorem outBytes_finalStep {s : State} (hw : s.outBuf.wf .outBuf = true) :
    (finalStep s).outBytes = serialise (fold s.h s.v) := by
  have len := length_serialise (fold s.h s.v)
  apply List.ext_getElem
  · simp [State.outBytes, len, Space.size]
  · intro k _ hk
    simp [State.outBytes, outByte_writeBytes (finalStep_outBuf s) (wf_rising hw) hk]

/-! ## Steps that touch only the inputs, the host's side and the schedule -/

theorem sameOperation_of_accessCase {s t : State} {a : Access} (h : AccessCase s a t) : SameOperation s t := by
  cases h <;> rfl

/-- The host's inputs and its program stand outside the invariant, but for the canonical form of `IN_BUF`. -/
theorem inv_of_sameOperation {s t : State} (hs : Inv s) (h : SameOperation s t) (hin : t.inBuf.wf .inBuf = true) : Inv t := by
  rw [h]
  exact { hs with in_wf := hin }

/-! ## The invariant, update by update -/

/-- While an operation runs the code is BUSY and the result registers are clear (20_memory.md R38). -/
theorem busy_clear {s : State} (hs : Inv s) (hb : s.ctl.busy = true) : s.status = .busy ∧ s.gasUsed = 0 ∧ s.outBuf = [] := by
  have hst := hs.status_busy.2 hb
  exact ⟨hst, hs.clear (by simp [hst])⟩

theorem inv_resetBlock (s : State) : Inv (resetBlock s) := by
  constructor <;> simp [State.reset, Ctl.busy]

theorem inv_latchInputs {s : State} (hs : Inv s) : Inv (latchInputs s) where
  in_wf := hs.in_wf
  out_wf := rfl
  latch_wf := hs.in_wf
  status_idle := by simp
  status_busy := by simp [Ctl.busy]
  clear := by simp
  decoded := by simp
  paid := by simp
  count_round := by simp
  count_final := by simp
  work := by simp
  finished := by simp

theorem inv_decodeStep {s : State} {n : Word32} {h : Vector Word 8} {m : Vector Word 16} {t : Vector Word 2} {f : Byte}
    (hs : Inv s) (hctl : s.ctl = .decode) (hdec : s.decodeLatched = .ok (.blake2f n h m t f)) :
    Inv (decodeStep n h m t f s) := by
  obtain ⟨hst, hclear⟩ := busy_clear hs (by rw [hctl]; rfl)
  obtain ⟨_, _, _, _, _, f', heq, _, hflag, _⟩ := decodeFrame_blake2f hdec
  obtain rfl : f = f' := by injection heq
  have call : (decodeStep n h m t f s).currentCall = .blake2f n h m t f := by
    simp only [State.currentCall, decodeStep_rounds, decodeStep_h, decodeStep_m, decodeStep_t, decodeStep_f,
      flagByte_getLsbD_of_legal hflag]
  exact {
    in_wf := hs.in_wf
    out_wf := hs.out_wf
    latch_wf := hs.latch_wf
    status_idle := by simp [hst]
    status_busy := by simp [hst, Ctl.busy]
    clear := fun _ => hclear
    decoded := fun _ => call ▸ hdec
    paid := by simp
    count_round := by simp
    count_final := by simp
    work := by simp
    finished := by simp }

/-- An error keeps the invariant if it is what `run` answers (60_exceptions.md R120, R126). -/
theorem inv_raise {s : State} {e : OpError} (hs : Inv s) (hb : s.ctl.busy = true)
    (hrun : run s.lLen (s.lBuf.read .lBuf) s.lGas = some ⟨e.code, 0, zeroOutput⟩) : Inv (raise e s) := by
  obtain ⟨_, hgas, hout⟩ := busy_clear hs hb
  have hcode : e.code ≠ .idle ∧ e.code ≠ .busy := by cases e <;> simp [OpError.code]
  have result : (raise e s).result = ⟨e.code, 0, zeroOutput⟩ := by
    simp [State.result, hgas, outBytes_of_clear (s := raise e s) hout]
  exact {
    in_wf := hs.in_wf
    out_wf := hs.out_wf
    latch_wf := hs.latch_wf
    status_idle := by simp [hcode]
    status_busy := by simp [hcode, Ctl.busy]
    clear := fun _ => ⟨hgas, hout⟩
    decoded := by simp
    paid := by simp
    count_round := by simp
    count_final := by simp
    work := by simp
    finished := fun _ => result ▸ hrun }

theorem inv_passed {s : State} (hs : Inv s) (hctl : s.ctl = .gascheck) (hge : ¬ s.lGas < gasCost s.rounds) :
    Inv { s with ctl := .init } := by
  have hst := hs.status_busy.2 (by rw [hctl]; rfl)
  exact { hs with
    status_idle := by simp [hst]
    status_busy := by simp [hst, Ctl.busy]
    decoded := fun _ => hs.decoded (.inl hctl)
    paid := fun _ => hge
    count_round := by simp
    count_final := by simp
    work := by simp
    finished := by simp }

/-- INIT and ROUND alike leave `V` as the seed after `RC` rounds and go to FINAL exactly when `RC` has reached `ROUNDS`
(42_controller.md R104 to R106). -/
theorem inv_mixing {s : State} {v : Vector Word 16} {rc : Word32} (hs : Inv s) (hctl : s.ctl = .init ∨ s.ctl = .round)
    (hle : rc.toNat ≤ s.rounds.toNat) (hv : v = runRounds (initVector s.h s.t s.f) s.m rc.toNat) :
    Inv { s with v := v, rc := rc, ctl := if rc = s.rounds then .final else .round } := by
  have hst := hs.status_busy.2 (by rcases hctl with h | h <;> rw [h] <;> rfl)
  have hdec := hs.decoded (by tauto)
  have hpaid := hs.paid (by tauto)
  by_cases hrc : rc = s.rounds
  · rw [if_pos hrc]
    exact { hs with
      status_idle := by simp [hst]
      status_busy := by simp [hst, Ctl.busy]
      decoded := fun _ => hdec
      paid := fun _ => hpaid
      count_round := by simp
      count_final := fun _ => hrc
      work := fun _ => hv
      finished := by simp }
  · rw [if_neg hrc]
    exact { hs with
      status_idle := by simp [hst]
      status_busy := by simp [hst, Ctl.busy]
      decoded := fun _ => hdec
      paid := fun _ => hpaid
      count_round := fun _ => lt_of_le_of_ne hle fun h => hrc (BitVec.eq_of_toNat_eq h)
      count_final := by simp
      work := fun _ => hv
      finished := by simp }

theorem inv_initStep {s : State} (hs : Inv s) (hctl : s.ctl = .init) : Inv (initStep s) := by
  have branch : (if s.rounds = 0 then Ctl.final else Ctl.round) = if 0 = s.rounds then .final else .round :=
    if_congr eq_comm rfl rfl
  rw [initStep, branch]
  exact inv_mixing hs (.inl hctl) (Nat.zero_le _) rfl

theorem inv_roundStep {s : State} (hs : Inv s) (hctl : s.ctl = .round) : Inv (roundStep s) := by
  have hlt := hs.count_round hctl
  refine inv_mixing hs (.inr hctl) ?_ ?_
  · have := s.rounds.isLt
    bv_omega
  · rw [runRounds_rc_succ hlt, ← hs.work (.inl hctl)]

theorem inv_finalStep {s : State} (hs : Inv s) (hctl : s.ctl = .final) : Inv (finalStep s) := by
  have hwork := hs.work (.inr hctl)
  rw [hs.count_final hctl] at hwork
  have hresult : (finalStep s).result =
      ⟨.success, gasCost s.rounds, serialise (compress s.h s.m s.t s.f s.rounds)⟩ := by
    simp [State.result, outBytes_finalStep hs.out_wf, compress, hwork]
  exact {
    in_wf := hs.in_wf
    out_wf := by
      rw [finalStep_outBuf]
      exact writeBytes_wf hs.out_wf (by rw [length_serialise]; decide)
    latch_wf := hs.latch_wf
    status_idle := by simp
    status_busy := by simp [Ctl.busy]
    clear := by simp
    decoded := by simp
    paid := by simp
    count_round := by simp
    count_final := by simp
    work := by simp
    finished := fun _ => by
      rw [hresult, ← runCall_currentCall_of_not_lt (hs.paid (by simp [hctl]))]
      exact run_of_decoded _ (hs.decoded (by simp [hctl])) }

/-- Settles O56: the step, case by case, on the invariant of the state with its turn used up. -/
theorem everyStepKeepsTheInvariant : Obligations.EveryStepKeepsTheInvariant := by
  intro s t hs h
  have hp : Inv s.pop := inv_of_sameOperation hs rfl hs.in_wf
  cases step_cases h with
  | reset => exact inv_resetBlock _
  | waits => exact hp
  | decode n hh m t f turn hctl hlen hdec => exact inv_decodeStep hp hctl hdec
  | illegal e turn hctl hlen hdec he =>
    exact inv_raise hp (by rw [pop_ctl, hctl]; rfl) (run_of_rejected _ hdec he)
  | tooDear turn hctl hgas hlt =>
    refine inv_raise hp (by rw [pop_ctl, hctl]; rfl) ?_
    rw [run_of_decoded _ (hp.decoded (.inl hctl))]
    exact runCall_currentCall_of_lt hlt
  | passed turn hctl hgas hge => exact inv_passed hp hctl hge
  | init turn hctl => exact inv_initStep hp hctl
  | round turn hctl => exact inv_roundStep hp hctl
  | final turn hctl => exact inv_finalStep hp hctl
  | start turn hctl => exact inv_latchInputs (inv_of_sameOperation hs rfl hs.in_wf)
  | host turn side => exact inv_of_sameOperation hs rfl hs.in_wf
  | access turn a t hacc =>
    have hmoved : Inv (s.pop.hostGoto (s.host.pc + 1)) := inv_of_sameOperation hs rfl hs.in_wf
    have hin := (step_wf hs.in_wf hs.out_wf hs.latch_wf h).1
    exact inv_of_sameOperation hmoved (sameOperation_of_accessCase hacc) hin

end Sys2Proof.Proofs
end

section
/-! SUPPORT. What each step leaves unchanged: the frame of BLAKE2F, the edges of `CTL`, the writers of `OUT_BUF`, and a command
word that is no command. -/

namespace Sys2Proof.Proofs

open Sys2Proof.Machine Sys2Proof.Laws

/-! ## The frame of BLAKE2F (10_state.md R29) -/

/-- What one `exec` of BLAKE2F that goes on can do, by `CTL` (40_decoder.md R70, 42_controller.md R102 to R108). -/
inductive Blake2fCase (n : Word32) (h : Vector Word 8) (m : Vector Word 16) (t : Vector Word 2) (f : Byte) (s : State) :
    State → Prop where
  | waits (hctl : s.ctl.busy = false) : Blake2fCase n h m t f s s
  | decode (hctl : s.ctl = .decode) : Blake2fCase n h m t f s (decodeStep n h m t f s)
  | tooDear (hctl : s.ctl = .gascheck) : Blake2fCase n h m t f s (raise .outOfGas s)
  | passed (hctl : s.ctl = .gascheck) : Blake2fCase n h m t f s { s with ctl := .init }
  | init (hctl : s.ctl = .init) : Blake2fCase n h m t f s (initStep s)
  | round (hctl : s.ctl = .round) : Blake2fCase n h m t f s (roundStep s)
  | final (hctl : s.ctl = .final) : Blake2fCase n h m t f s (finalStep s)

theorem blake2f_cases {n : Word32} {h : Vector Word 8} {m : Vector Word 16} {t : Vector Word 2} {f : Byte} {s u : State}
    (hx : exec (.blake2f n h m t f) s = .next u) : Blake2fCase n h m t f s u := by
  simp only [exec, execBlake2f] at hx
  split at hx
  · next hctl => cases hx; exact .waits (by rw [hctl]; rfl)
  · next hctl => cases hx; exact .decode hctl
  · next hctl =>
    obtain ⟨_, ⟨_, rfl⟩ | ⟨_, rfl⟩⟩ := gasCheckStep_cases hx
    · exact .tooDear hctl
    · exact .passed hctl
  · next hctl => cases hx; exact .init hctl
  · next hctl => cases hx; exact .round hctl
  · next hctl => cases hx; exact .final hctl
  · next hctl => cases hx; exact .waits (by rw [hctl]; rfl)

/-- A write of the output bytes stores the 64 of them and no byte past them. -/
theorem read_writeBytes_serialise_past {mem : Memory} {w : Vector Word 8} {k : Nat} (hk : 64 ≤ k)
    (hw : mem.wf .outBuf = true) : (mem.writeBytes .outBuf 0 (serialise w)).read .outBuf k = mem.read .outBuf k := by
  rw [read_writeBytes _ _ _ _ (wf_rising hw), length_serialise, if_neg (by omega)]

/-- Settles O29: the fields each controller step writes, by `CTL`. -/
theorem blake2fLeavesTheRest : Obligations.Blake2fLeavesTheRest := by
  intro n h m t f s u hx
  cases blake2f_cases hx with
  | waits => simp
  | decode hctl => simp [hctl]
  | tooDear hctl => simp [hctl]
  | passed hctl => simp
  | init hctl => simp [hctl]
  | round hctl => simp [hctl]
  | final hctl => simpa [hctl] using fun _ => read_writeBytes_serialise_past

/-! ## What a step does to `CTL` and to `OUT_BUF` -/

theorem ctl_of_sameOperation {s t : State} (h : SameOperation s t) : t.ctl = s.ctl := by
  rw [h]

theorem outBuf_of_sameOperation {s t : State} (h : SameOperation s t) : t.outBuf = s.outBuf := by
  rw [h]

/-- A budget covers the cost exactly if it is at least `ROUNDS` (42_controller.md R102, R103). -/
theorem not_lt_gasCost_iff {gas : Word} {rounds : Word32} : ¬ gas < gasCost rounds ↔ rounds.toNat ≤ gas.toNat := by
  rw [BitVec.lt_def, gasCost_toNat, not_lt]

/-- Settles O35: the edge each kind of step takes; the others leave `CTL` as it is. -/
theorem controllerMovesOnlyAlongItsEdges : Obligations.ControllerMovesOnlyAlongItsEdges := by
  intro s t h hne
  cases step_cases h with
  | reset turn => exact .inl ⟨turn, rfl⟩
  | waits => exact absurd rfl hne
  | decode _ _ _ _ _ turn hctl => simp [turn, hctl]
  | illegal _ turn hctl => simp [turn, hctl, OpError.code]
  | tooDear turn hctl => simp [turn, hctl, OpError.code]
  | passed turn hctl hgas hge => simp [turn, hctl, not_lt_gasCost_iff.1 hge]
  | init turn hctl => by_cases hr : s.rounds = 0#32 <;> simp [turn, hctl, hr]
  | round turn hctl =>
    by_cases hr : s.rc + 1#32 = s.rounds
    · simp [turn, hctl, hr]
    · exact absurd (by simp [hctl, hr]) hne
  | final turn hctl => simp [turn, hctl]
  | start turn hctl =>
    have waiting : s.ctl = .idle ∨ s.ctl = .done := by
      revert hctl
      cases s.ctl <;> simp [Ctl.busy]
    exact .inr (.inl ⟨turn, waiting, rfl⟩)
  | host => exact absurd rfl hne
  | access turn a t hacc => exact absurd (ctl_of_sameOperation (sameOperation_of_accessCase hacc)) hne

/-- Settles O40: every step but the three named leaves `OUT_BUF` as it is. -/
theorem outputChangesOnlyAtStartFinalReset : Obligations.OutputChangesOnlyAtStartFinalReset := by
  intro s t h ⟨k, hk⟩
  have unchanged : t.outBuf ≠ s.outBuf := fun e => hk (by rw [e])
  cases step_cases h with
  | reset turn => exact .inr (.inr turn)
  | final turn hctl => exact .inr (.inl ⟨turn, hctl⟩)
  | start turn hctl => exact .inl ⟨turn, hctl, rfl⟩
  | access turn a t hacc => exact absurd (outBuf_of_sameOperation (sameOperation_of_accessCase hacc)) unchanged
  | _ => exact absurd (by simp) unchanged

/-! ## A command word that is no command -/

theorem decodeCommand_of_bit_clear {w : Word} (h : w.getLsbD 0 = false) : decodeCommand w = .error .notStart := by
  simp only [decodeCommand, h, Bool.false_eq_true, if_false]

theorem fetchAccess_command_of_bit_clear {s : State} {w : Word} (h : w.getLsbD 0 = false) :
    fetchAccess s (.regWrite 2 w) = .act (.next s) := by
  simp only [fetchAccess, decodeCommand_of_bit_clear h]

/-- Settles O34: the command decoder rejects the word, so the host's turn only moves the host on. -/
theorem commandWithoutStartDoesNothing : Obligations.CommandWithoutStartDoesNothing := by
  intro s w turn hop hbit
  exact (step_host turn hop).trans (congrArg perform (fetchAccess_command_of_bit_clear hbit))

end Sys2Proof.Proofs
end

section
/-! SUPPORT. The rules of the host's accesses, read by read and write by write, and what a host step that reads, or that reaches
outside a byte space, does. -/

namespace Sys2Proof.Proofs

open Sys2Proof.Machine Sys2Proof.Laws

/-! ## One access (42_controller.md R115, R116) -/

theorem hostAccess_regRead_eq_next {s t : State} {n : Nat} :
    hostAccess s (.regRead n) = .next t ↔ ∃ w, s.regRead n = .ok w ∧ t = s.recordRead w := by
  simp only [hostAccess]
  cases s.regRead n <;> simp [eq_comm]

theorem hostAccess_regRead_of_error {s : State} {n : Nat} {e : Fault} (h : s.regRead n = .error e) :
    hostAccess s (.regRead n) = .fault e := by
  simp only [hostAccess, h]

theorem hostAccess_inRead {s : State} {k : Nat} (hk : k < 213) : hostAccess s (.inRead k) = readInByte k s :=
  if_pos hk

theorem hostAccess_inRead_eq_next {s t : State} {k : Nat} :
    hostAccess s (.inRead k) = .next t ↔
      k < 213 ∧ ∃ x, s.inBuf.read .inBuf k = some x ∧ t = s.recordRead (x.setWidth 64) := by
  by_cases hk : k < 213
  · rw [hostAccess_inRead hk, readInByte]
    cases s.inBuf.read .inBuf k <;> simp [hk, eq_comm]
  · simp [hostAccess, Space.size, hk]

theorem hostAccess_inRead_of_none {s : State} {k : Nat} (hk : k < 213) (h : s.inBuf.read .inBuf k = none) :
    hostAccess s (.inRead k) = .fault (.noValue (.inByte k)) := by
  rw [hostAccess_inRead hk, readInByte, h]

/-- Every byte of `OUT_BUF` has a value (10_state.md R18). -/
theorem read_outBuf (s : State) (k : Nat) : s.outBuf.read .outBuf k = some (s.outByte k) := by
  simp only [State.outByte, Memory.read, Space.unwritten]
  cases s.outBuf.find k <;> rfl

theorem hostAccess_outRead_eq_next {s t : State} {k : Nat} :
    hostAccess s (.outRead k) = .next t ↔ k < 64 ∧ t = s.recordRead ((s.outByte k).setWidth 64) := by
  by_cases hk : k < 64 <;> simp [hostAccess, Space.size, hk, eq_comm]

theorem hostAccess_inWrite {s : State} {k : Nat} (x : Byte) (hk : k < 213) :
    hostAccess s (.inWrite k x) = .next { s with inBuf := s.inBuf.write .inBuf k x } :=
  if_pos hk

theorem hostAccess_outWrite (s : State) {k : Nat} (x : Byte) (hk : k < 64) : hostAccess s (.outWrite k x) = .next s :=
  if_pos hk

/-- An access to `IN_BUF` past its 213 bytes is refused (20_memory.md R30). -/
theorem hostAccess_inBuf_outside (s : State) {k : Nat} {a : Access} (ha : a = .inRead k ∨ ∃ x, a = .inWrite k x)
    (hk : 213 ≤ k) : hostAccess s a = .refused (.outsideByteSpace .inBuf k) := by
  rcases ha with rfl | ⟨x, rfl⟩ <;> exact if_neg (Nat.not_lt.2 hk)

/-- An access to `OUT_BUF` past its 64 bytes is refused (20_memory.md R30). -/
theorem hostAccess_outBuf_outside (s : State) {k : Nat} {a : Access} (ha : a = .outRead k ∨ ∃ x, a = .outWrite k x)
    (hk : 64 ≤ k) : hostAccess s a = .refused (.outsideByteSpace .outBuf k) := by
  rcases ha with rfl | ⟨x, rfl⟩ <;> exact if_neg (Nat.not_lt.2 hk)

/-! ## The host step of an access -/

/-- Every access but a write to `CMD` goes past the command decoder (10_state.md R14). -/
theorem fetchAccess_of_no_command (s : State) {a : Access} (h : ∀ w, a ≠ .regWrite 2 w) :
    fetchAccess s a = .act (hostAccess s a) := by
  unfold fetchAccess
  split
  · next w => exact absurd rfl (h w)
  · rfl

theorem busAccess_of_no_command (s : State) {a : Access} (h : ∀ w, a ≠ .regWrite 2 w) : busAccess s a = hostAccess s a := by
  rw [busAccess, fetchAccess_of_no_command s h]

/-- A host step at an access is that access, with the turn used up and the host moved on (log 1). -/
theorem step_access {s : State} {a : Access} (turn : s.nextTurn = .host) (hop : s.host.ops[s.host.pc]? = some (.access a)) :
    step s = busAccess (s.pop.hostGoto (s.host.pc + 1)) a := by
  rw [step_host turn hop]
  rfl

/-- Settles O48: the step is the access, and the access is refused. -/
theorem accessOutsideTheSpacesIsRefused : Obligations.AccessOutsideTheSpacesIsRefused := by
  intro s k b turn
  refine ⟨fun hop hk => ?_, fun hop hk => ?_⟩
  · rcases hop with hop | hop <;> rw [step_access turn hop, busAccess_of_no_command _ (by simp)]
    · exact hostAccess_inBuf_outside _ (.inl rfl) hk
    · exact hostAccess_inBuf_outside _ (.inr ⟨b, rfl⟩) hk
  · rcases hop with hop | hop <;> rw [step_access turn hop, busAccess_of_no_command _ (by simp)]
    · exact hostAccess_outBuf_outside _ (.inl rfl) hk
    · exact hostAccess_outBuf_outside _ (.inr ⟨b, rfl⟩) hk

/-- A read records one value, the one that stands where it reads, and does nothing else (20_memory.md R39). -/
theorem hostAccess_read_records {s t : State} {a : Access}
    (ha : (∃ n, a = .regRead n) ∨ (∃ k, a = .inRead k) ∨ ∃ k, a = .outRead k)
    (h : hostAccess s a = .next t) :
    ∃ w, t = s.recordRead w ∧ (∀ n, a = .regRead n → s.regRead n = .ok w) ∧
      (∀ k, a = .inRead k → (s.inBuf.read .inBuf k).map (·.setWidth 64) = some w) ∧
      ∀ k, a = .outRead k → (s.outBuf.read .outBuf k).map (·.setWidth 64) = some w := by
  rcases ha with ⟨n, rfl⟩ | ⟨k, rfl⟩ | ⟨k, rfl⟩
  · obtain ⟨w, hw, rfl⟩ := hostAccess_regRead_eq_next.1 h
    exact ⟨w, rfl, by simp [hw], by simp, by simp⟩
  · obtain ⟨_, x, hx, rfl⟩ := hostAccess_inRead_eq_next.1 h
    exact ⟨_, rfl, by simp, by simp [hx], by simp⟩
  · obtain ⟨_, rfl⟩ := hostAccess_outRead_eq_next.1 h
    exact ⟨_, rfl, by simp, by simp, by simp [read_outBuf]⟩

/-- Settles O44: the step is the read, from a block in which only the host has moved on. -/
theorem hostReadsChangeNothing : Obligations.HostReadsChangeNothing := by
  intro s t a turn hop ha h
  rw [step_access turn hop, busAccess_of_no_command _ (by rintro w rfl; simp at ha)] at h
  obtain ⟨w, rfl, hreg, hin, hout⟩ := hostAccess_read_records ha h
  exact ⟨rfl, rfl, rfl, w, rfl, hreg, hin, hout⟩

end Sys2Proof.Proofs
end

section
/-! SUPPORT. Who may touch what while an operation runs: the host its inputs, the block its own registers, and what the host
then sees. -/

namespace Sys2Proof.Proofs

open Sys2Proof.Machine Sys2Proof.Laws

/-- Settles O37: of the host's steps only START, which is dropped while an operation runs, writes more than the inputs. -/
theorem hostCannotDisturbAnOperation : Obligations.HostCannotDisturbAnOperation := by
  intro s t hbusy hturn h
  cases step_cases h with
  | start _ hctl => exact absurd (hctl.symm.trans hbusy) (by decide)
  | host => rfl
  | access _ a t hacc =>
    have moved := sameOperation_of_accessCase hacc
    exact moved
  | _ => simp_all -- the turn is the controller's or a reset's

/-- Settles O38: no controller step names an input register, `IN_BUF` or the host. -/
theorem blockNeverWritesTheInputs : Obligations.BlockNeverWritesTheInputs := by
  intro s t hturn h
  cases step_cases h with
  | reset turn | start turn | host turn | access turn => exact absurd (turn.symm.trans hturn) (by decide)
  | _ => simp

theorem statusWord_eq_one {s : State} : s.statusWord = 1 ↔ s.status = .busy := by
  unfold State.statusWord
  cases s.status <;> simp [Code.toWord]

/-- Settles O57: the code 1 is BUSY, and with it the result registers are clear. -/
theorem busyShowsNoResult : Obligations.BusyShowsNoResult := by
  intro s hs hcode
  have hbusy : s.ctl.busy = true := hs.status_busy.1 (statusWord_eq_one.1 hcode)
  obtain ⟨_, hgas, hout⟩ := busy_clear hs hbusy
  exact ⟨hgas, outBytes_of_clear hout⟩

end Sys2Proof.Proofs
end

section
/-! SUPPORT. The register writes of a transfer: what it stages, which writes it completes, and which it leaves waiting
(20_memory.md R34, R37; log 9). -/

namespace Sys2Proof.Proofs

open Sys2Proof.Machine Sys2Proof.Laws

/-- The bytes of a number in either order (20_memory.md R34). -/
theorem numberBytes (order : Config.ByteOrder) : NumberBytes order where
  eight := length_numericBytes order
  number w := numericWord_of_bytes order w _ fun k hk => by simp [numericBytes_getElem? order w hk]
  little horder w k hk := by
    rw [numericBytes_getElem? order w hk, wordByte_eq_extract, horder]
    rfl
  big horder w k hk := by
    rw [numericBytes_getElem? order w hk, wordByte_eq_extract, horder, significance,
      show 8 * (7 - k) = 56 - 8 * k by omega]

section Transfer

variable {b : Config.BusBinding} {c : Config.BusCycle} {n : Nat} {w : Word} {staged : Staged} {s : State}

/-! ## What has come once the transfer's bytes are staged -/

/-- What is staged while the accesses of a transfer are decided: the bytes it carries on top of the earlier ones. -/
def stagedWith (b : Config.BusBinding) (staged : Staged) (c : Config.BusCycle) : Staged := (carried b c).foldl stageByte staged

theorem reaches_iff_carried {target : Config.LaneTarget} : Reaches b c target ↔ ∃ x, (target, x) ∈ carried b c := by
  simp only [mem_carried]
  constructor
  · rintro ⟨i, hi, hl⟩
    exact ⟨c.lanes[i], i, hi, hl, List.getElem?_eq_getElem hi⟩
  · rintro ⟨x, i, hi, hl, -⟩
    exact ⟨i, hi, hl⟩

theorem carried_byte (hcarries : CarriesBytesOf b c n w) {p : Fin 8} {x : Byte} (h : (.registerByte n p, x) ∈ carried b c) :
    (numericBytes b.numericOrder w)[p.val]? = some x := by
  obtain ⟨i, _, hl, hx⟩ := mem_carried.1 h
  exact hcarries i x p hx hl

/-- A byte the transfer carries is the one staged; where it carries none, what was staged stays. -/
theorem byte?_stagedWith (hcarries : CarriesBytesOf b c n w) (p : Fin 8) :
    (Reaches b c (.registerByte n p) → (stagedWith b staged c).byte? n p = (numericBytes b.numericOrder w)[p.val]?) ∧
    (¬ Reaches b c (.registerByte n p) → (stagedWith b staged c).byte? n p = staged.byte? n p) := by
  have bytes : ∀ (q : Fin 8) (x : Byte), (.registerByte n q, x) ∈ carried b c →
      x = wordByte w (significance b.numericOrder q) := fun q x hx => by
    have := carried_byte hcarries hx
    rw [numericBytes_getElem? _ w q.isLt] at this
    exact (Option.some.inj this).symm
  rw [stagedWith, byte?_foldl_stageByte (fun q => wordByte w (significance b.numericOrder q)) p _ staged bytes,
    numericBytes_getElem? _ w p.isLt]
  refine ⟨fun hr => if_pos ?_, fun hr => if_neg fun hm => hr (reaches_iff_carried.2 ⟨_, hm⟩)⟩
  obtain ⟨x, hx⟩ := reaches_iff_carried.1 hr
  exact bytes p x hx ▸ hx

/-! ## The byte a write takes where none has come -/

theorem pendingByte_zero {p : Fin 8} (h : staged.byte? n p = none) (hz : b.missing n = .zero) :
    pendingByte b s staged n p = some 0x00#8 := by
  unfold pendingByte
  rw [h, hz]

theorem pendingByte_held {p : Fin 8} {old : Word} (h : staged.byte? n p = none) (hh : b.missing n = .held)
    (hold : s.regRead n = .ok old) : pendingByte b s staged n p = (numericBytes b.numericOrder old)[p.val]? := by
  unfold pendingByte
  rw [h, hh, numericBytes_getElem? _ old p.isLt]
  simp only [hold]

theorem pendingByte_held_of_error {p : Fin 8} {e : Fault} (h : staged.byte? n p = none) (hh : b.missing n = .held)
    (he : s.regRead n = .error e) : pendingByte b s staged n p = none := by
  unfold pendingByte
  rw [h, hh]
  simp only [he]

/-- Each byte of a complete write is the number's, wherever it is taken from. -/
theorem pendingByte_of_complete (hcarries : CarriesBytesOf b c n w) (h : WriteComplete b staged s c n w) (p : Fin 8) :
    pendingByte b s (stagedWith b staged c) n p = (numericBytes b.numericOrder w)[p.val]? := by
  obtain ⟨reached, missed⟩ := byte?_stagedWith (staged := staged) hcarries p
  have value := numericBytes_getElem? b.numericOrder w p.isLt
  by_cases hr : Reaches b c (.registerByte n p)
  · rw [value]
    exact pendingByte_staged ((reached hr).trans value)
  · rcases h p with hr' | hst | ⟨hst, ⟨hz, hbyte⟩ | ⟨hh, old, hold, hbyte⟩⟩
    · exact absurd hr' hr
    · rw [value]
      exact pendingByte_staged ((missed hr).trans (hst.trans value))
    · rw [hbyte]
      exact pendingByte_zero ((missed hr).trans hst) hz
    · rw [hbyte]
      exact pendingByte_held ((missed hr).trans hst) hh hold

theorem pendingWord_of_complete (hcarries : CarriesBytesOf b c n w) (h : WriteComplete b staged s c n w) :
    pendingWord b s (stagedWith b staged c) n = some w :=
  pendingWord_complete (pendingByte_of_complete hcarries h)

theorem pendingWord_of_waits (hcarries : CarriesBytesOf b c n w) (h : WriteWaits b staged s c n) :
    pendingWord b s (stagedWith b staged c) n = none := by
  obtain ⟨p, hr, hst, hw⟩ := h
  have hnow := ((byte?_stagedWith hcarries p).2 hr).trans hst
  apply pendingWord_incomplete (p := p)
  rcases hw with hw | ⟨hh, e, he⟩
  · exact pendingByte_waits hnow hw
  · exact pendingByte_held_of_error hnow hh he

/-! ## The writes of a transfer -/

theorem regWrite_mem_busWrite {w' : Word} : .regWrite n w' ∈ (busWrite b staged s c).2 ↔
    (∃ p, Reaches b c (.registerByte n p)) ∧ pendingWord b s (stagedWith b staged c) n = some w' := by
  simp only [mem_busWrite, reaches_iff_carried]
  rfl

/-- Where no write of a register is made, what has come of it stays staged. -/
theorem byte?_busWrite_of_not_written (h : ∀ w', .regWrite n w' ∉ (busWrite b staged s c).2) (p : Fin 8) :
    (busWrite b staged s c).1.byte? n p = (stagedWith b staged c).byte? n p := by
  rw [byte?_busWrite, if_neg (by simpa using h)]
  rfl

end Transfer

theorem registerTransfers (b : Config.BusBinding) : RegisterTransfers b where
  complete c n w staged s hreach hcarries hcomplete := by
    have written : ∀ w', .regWrite n w' ∈ (busWrite b staged s c).2 ↔ w' = w := fun w' => by
      rw [regWrite_mem_busWrite, pendingWord_of_complete hcarries hcomplete]
      simp [hreach, eq_comm]
    exact ⟨written, fun p => by rw [byte?_busWrite, if_pos ⟨w, (written w).2 rfl⟩]⟩
  waits c n w staged s hcarries hwaits := by
    have unwritten : ∀ w', .regWrite n w' ∉ (busWrite b staged s c).2 := fun w' => by
      simp [regWrite_mem_busWrite, pendingWord_of_waits hcarries hwaits]
    refine ⟨unwritten, fun p => ?_⟩
    rw [byte?_busWrite_of_not_written unwritten p]
    exact byte?_stagedWith hcarries p
  untouched c n staged s hreach := by
    have unwritten : ∀ w', .regWrite n w' ∉ (busWrite b staged s c).2 := fun w' => by
      simp [regWrite_mem_busWrite, hreach]
    have nothing : CarriesBytesOf b c n 0 := fun i x p hx hl =>
      absurd ⟨i, (List.getElem?_eq_some_iff.1 hx).1, hl⟩ (hreach p)
    refine ⟨unwritten, fun p => ?_⟩
    rw [byte?_busWrite_of_not_written unwritten p]
    exact (byte?_stagedWith nothing p).2 (hreach p)

end Sys2Proof.Proofs
end

section
/-! SUPPORT. Write cycles: the accesses of a transfer and their order, and what a cycle does to a register, to `CMD` and to the
byte spaces (20_memory.md R30, R37; 42_controller.md R116; log 9). -/

namespace Sys2Proof.Proofs

open Sys2Proof.Machine Sys2Proof.Laws

/-! ## Lanes in order -/

/-- What lane `i` carries, and to where. -/
def carriedByLane (b : Config.BusBinding) (c : Config.BusCycle) (i : Nat) : Option (Config.LaneTarget × Byte) :=
  (b.lane c i).bind fun target => (c.lanes[i]?).map fun x => (target, x)

theorem carried_eq_filterMap (b : Config.BusBinding) (c : Config.BusCycle) :
    carried b c = (List.range c.lanes.length).filterMap (carriedByLane b c) := rfl

theorem carriedByLane_eq_some {b : Config.BusBinding} {c : Config.BusCycle} {i : Nat} {e : Config.LaneTarget × Byte} :
    carriedByLane b c i = some e ↔ b.lane c i = some e.1 ∧ c.lanes[i]? = some e.2 := by
  obtain ⟨target, x⟩ := e
  simp [carriedByLane, Option.bind_eq_some_iff, Option.map_eq_some_iff]

theorem carriedByLane_of_lane {b : Config.BusBinding} {c : Config.BusCycle} {i : Nat} {target : Config.LaneTarget} {x : Byte}
    (hl : b.lane c i = some target) (hx : c.lanes[i]? = some x) : carriedByLane b c i = some (target, x) :=
  carriedByLane_eq_some.2 ⟨hl, hx⟩

/-- The lanes before and after one whose byte has a place to go. -/
theorem carried_split {b : Config.BusBinding} {c : Config.BusCycle} {i : Nat} {e : Config.LaneTarget × Byte}
    (h : carriedByLane b c i = some e) : ∃ front back, carried b c = front ++ e :: back ∧
      (∀ e' ∈ front, ∃ j < i, carriedByLane b c j = some e') ∧
      ∀ e' ∈ back, ∃ j < c.lanes.length, i < j ∧ carriedByLane b c j = some e' := by
  have hi := (List.getElem?_eq_some_iff.1 (carriedByLane_eq_some.1 h).2).1
  obtain ⟨d, hd⟩ := Nat.exists_eq_add_of_lt hi
  have lanes : List.range c.lanes.length = List.range i ++ i :: List.range' (i + 1) d := by
    rw [hd, Nat.add_assoc, List.range_eq_range', List.range_eq_range', ← List.range'_append, Nat.zero_add, Nat.one_mul,
      List.range'_succ]
  refine ⟨(List.range i).filterMap (carriedByLane b c), (List.range' (i + 1) d).filterMap (carriedByLane b c), ?_, ?_, ?_⟩
  · rw [carried_eq_filterMap, lanes, List.filterMap_append, List.filterMap_cons_some h]
  · intro e' he
    obtain ⟨j, hj, hje⟩ := List.mem_filterMap.1 he
    exact ⟨j, List.mem_range.1 hj, hje⟩
  · intro e' he
    obtain ⟨j, hj, hje⟩ := List.mem_filterMap.1 he
    have := List.mem_range'_1.1 hj
    exact ⟨j, by omega, by omega, hje⟩

theorem mem_front_of_lt {count i j : Nat} {front back : List Nat} (h : List.range count = front ++ i :: back) (hj : j < i) :
    j ∈ front := by
  rw [List.range_eq_range', List.range'_eq_append_iff] at h
  obtain ⟨k, _, rfl, hback⟩ := h
  obtain ⟨rfl, _⟩ := List.range'_eq_cons_iff.1 hback.symm
  simpa using hj

/-! ## The accesses of a transfer -/

/-- The register writes a transfer completes, by lowest lane (log 9). -/
def registerWrites (b : Config.BusBinding) (staged : Staged) (s : State) (c : Config.BusCycle) : List (Nat × Word) :=
  ((carried b c).filterMap registerNumber).eraseDups.filterMap fun n =>
    (pendingWord b s (stagedWith b staged c) n).map fun w => (n, w)

theorem busWrite_accesses (b : Config.BusBinding) (staged : Staged) (s : State) (c : Config.BusCycle) :
    (busWrite b staged s c).2 =
      (carried b c).filterMap byteAccess ++ (registerWrites b staged s c).map fun r => .regWrite r.1 r.2 := rfl

/-- A register whose number comes first among those carried has a lane below every lane of the other. -/
theorem lane_of_firstBefore {b : Config.BusBinding} {c : Config.BusCycle} {n m : Nat}
    (h : FirstBefore ((carried b c).filterMap registerNumber) n m) :
    ∃ i < c.lanes.length, (∃ p, b.lane c i = some (.registerByte n p)) ∧ ∀ j ≤ i, ∀ p, b.lane c j ≠ some (.registerByte m p) := by
  obtain ⟨front, back, hl, hfront, hne⟩ := h
  rw [carried_eq_filterMap, List.filterMap_filterMap, List.filterMap_eq_append_iff] at hl
  obtain ⟨l₁, l₂, hlanes, rfl, hl₂⟩ := hl
  obtain ⟨l₃, i, l₄, rfl, hnone, hi, -⟩ := List.filterMap_eq_cons_iff.1 hl₂
  rw [← List.append_assoc] at hlanes
  have hlen : i < c.lanes.length := List.mem_range.1 (hlanes ▸ by simp)
  obtain ⟨⟨target, x⟩, hlane, hreg⟩ := Option.bind_eq_some_iff.1 hi
  have hlane := (carriedByLane_eq_some.1 hlane).1
  cases target with
  | inByte k => cases hreg
  | outByte k => cases hreg
  | registerByte n' q =>
    obtain rfl : n' = n := Option.some.inj hreg
    refine ⟨i, hlen, ⟨q, hlane⟩, fun j hj p hjm => ?_⟩
    rcases Nat.lt_or_eq_of_le hj with hlt | rfl
    · have hjc : carriedByLane b c j = some (.registerByte m p, c.lanes[j]) :=
        carriedByLane_eq_some.2 ⟨hjm, List.getElem?_eq_getElem (hlt.trans hlen)⟩
      have number : ((carriedByLane b c j).bind registerNumber) = some m := by rw [hjc]; rfl
      rcases List.mem_append.1 (mem_front_of_lt hlanes hlt) with hmem | hmem
      · exact hfront (List.mem_filterMap.2 ⟨j, hmem, number⟩)
      · exact absurd (number.symm.trans (hnone j hmem)) (by simp)
    · rw [hlane] at hjm
      cases hjm
      exact hne rfl

theorem pairwise_registerWrites (b : Config.BusBinding) (staged : Staged) (s : State) (c : Config.BusCycle) :
    (registerWrites b staged s c).Pairwise fun r r' => ∃ i < c.lanes.length,
      (∃ p, b.lane c i = some (.registerByte r.1 p)) ∧ ∀ j ≤ i, ∀ p, b.lane c j ≠ some (.registerByte r'.1 p) := by
  refine (pairwise_eraseDups _).filterMap _ ?_
  intro n m hnm r hr r' hr'
  obtain ⟨_, _, rfl⟩ := Option.map_eq_some_iff.1 hr
  obtain ⟨_, _, rfl⟩ := Option.map_eq_some_iff.1 hr'
  exact lane_of_firstBefore hnm

theorem byteAccess_carriedByLane {b : Config.BusBinding} {c : Config.BusCycle} {i : Nat} (hi : i < c.lanes.length) :
    (carriedByLane b c i).bind byteAccess =
      (b.lane c i).bind fun target => byteAccess (target, c.lanes.getD i 0x00#8) := by
  cases hl : b.lane c i <;> simp [carriedByLane, hl, List.getElem?_eq_getElem hi]

/-! ## A cycle makes its accesses -/

theorem writeCycles (b : Config.BusBinding) : WriteCycles b where
  order c staged s := by
    refine ⟨registerWrites b staged s c, ?_, pairwise_registerWrites b staged s c⟩
    rw [busWrite_accesses, carried_eq_filterMap, List.filterMap_filterMap]
    congr 1
    refine List.filterMap_congr fun i hi => ?_
    rw [byteAccess_carriedByLane (List.mem_range.1 hi)]
    cases b.lane c i with
    | none => rfl
    | some target => cases target <;> rfl
  performs c staged s h := by
    obtain ⟨hreset, htakes, hwrite⟩ := h
    refine ⟨fun t ht => ?_, fun e he => ?_, fun e he => ?_⟩
    · simp [busCycle, hreset, htakes, hwrite, ht]
    · simp [busCycle, hreset, htakes, hwrite, he]
    · simp [busCycle, hreset, htakes, hwrite, he]
  sequence s front back := by
    rw [busAccesses_append]
    refine ⟨fun t ht => ?_, fun e he => ?_, fun e he => ?_⟩
    · rw [ht]
    · rw [he]
    · rw [he]
  hostStep s a turn hop := by
    rw [busAccesses_singleton, step_access turn hop]
    rfl

/-! ## Cycles at one register -/

/-- A register write other than a command stores its word or is ignored (42_controller.md R116). -/
theorem busAccess_regWrite (s : State) {n : Nat} (w : Word) (hn : n ≠ 2) :
    busAccess s (.regWrite n w) = .next (s.regWrite w n) :=
  busAccess_of_no_command s (by simp [hn])

theorem busAccess_command_of_bit_clear (s : State) {w : Word} (h : w.getLsbD 0 = false) :
    busAccess s (.regWrite 2 w) = .next s := by
  rw [busAccess, fetchAccess_command_of_bit_clear h]

theorem busAccess_command {s : State} {w : Word} {i : Instr} (h : decode (.command w) = .ok i) :
    busAccess s (.regWrite 2 w) = exec i s := by
  have h : decodeCommand w = .ok i := h
  simp only [busAccess, fetchAccess, h]

theorem carried_at_register {b : Config.BusBinding} {c : Config.BusCycle} {n : Nat}
    (h : ∀ target, Reaches b c target → ∃ p, target = .registerByte n p) :
    ∀ e ∈ carried b c, ∃ p x, e = (.registerByte n p, x) := by
  intro e he
  obtain ⟨p, hp⟩ := h e.1 (reaches_iff_carried.2 ⟨e.2, he⟩)
  exact ⟨p, e.2, Prod.ext hp rfl⟩

/-- A transfer at one register makes the write of it that is complete, or no access. -/
theorem busWrite_accesses_at_register {b : Config.BusBinding} {c : Config.BusCycle} {n : Nat} (staged : Staged) (s : State)
    (hreach : ∃ p, Reaches b c (.registerByte n p)) (hone : ∀ target, Reaches b c target → ∃ p, target = .registerByte n p) :
    (busWrite b staged s c).2 = ((pendingWord b s (stagedWith b staged c) n).map (.regWrite n)).toList := by
  obtain ⟨p, hp⟩ := hreach
  obtain ⟨x, hx⟩ := reaches_iff_carried.1 hp
  rw [busWrite_register staged s (List.ne_nil_of_mem hx) (carried_at_register hone), stagedWith]
  cases pendingWord b s ((carried b c).foldl stageByte staged) n <;> rfl

theorem registerCycles (b : Config.BusBinding) : RegisterCycles b where
  complete c n w staged s hnow hreach hone hcarries hcomplete := by
    have one : (busWrite b staged s c).2 = [.regWrite n w] := by
      rw [busWrite_accesses_at_register staged s hreach hone, pendingWord_of_complete hcarries hcomplete]
      rfl
    have cycle : ∀ t, busAccess s (.regWrite n w) = .next t → busCycle b ⟨s, staged⟩ c = .next ⟨t, (busWrite b staged s c).1⟩ :=
      fun t ht => ((writeCycles b).performs c staged s hnow).1 t (by rw [one, busAccesses_singleton, ht])
    refine ⟨fun hn => cycle _ (busAccess_regWrite s w hn), ?_, ?_⟩
    · rintro rfl hbit
      exact cycle _ (busAccess_command_of_bit_clear s hbit)
    · rintro rfl i t hdec hexec
      exact cycle _ ((busAccess_command hdec).trans hexec)
  waits c n w staged s hnow hone hcarries hwaits := by
    refine ((writeCycles b).performs c staged s hnow).1 s ?_
    by_cases hreach : ∃ p, Reaches b c (.registerByte n p)
    · rw [busWrite_accesses_at_register staged s hreach hone, pendingWord_of_waits hcarries hwaits]
      rfl
    · have empty : carried b c = [] := List.eq_nil_iff_forall_not_mem.2 fun e he => by
        obtain ⟨p, x, rfl⟩ := carried_at_register hone e he
        exact hreach ⟨p, reaches_iff_carried.2 ⟨x, he⟩⟩
      simp [busWrite, empty, busAccesses]

/-! ## Cycles at the byte spaces -/

/-- `IN_BUF` after a carried byte. -/
def storeByte (mem : Memory) : Config.LaneTarget × Byte → Memory
  | (.registerByte _ _, _) => mem
  | (.inByte k, x) => mem.write .inBuf k x
  | (.outByte _, _) => mem

/-- A carried byte that goes to a byte space goes to an offset inside it (20_memory.md R30). -/
def Inside (e : Config.LaneTarget × Byte) : Prop := (∀ k, e.1 = .inByte k → k < 213) ∧ ∀ k, e.1 = .outByte k → k < 64

theorem inside_of_lane {b : Config.BusBinding} {c : Config.BusCycle} {i : Nat} {e : Config.LaneTarget × Byte}
    (h : LaneInside b c i) (hi : carriedByLane b c i = some e) : Inside e := by
  obtain ⟨hl, _⟩ := carriedByLane_eq_some.1 hi
  exact ⟨fun k hk => h.1 k (hk ▸ hl), fun k hk => h.2 k (hk ▸ hl)⟩

theorem storeByte_rising {mem : Memory} (h : mem.rising = true) (e : Config.LaneTarget × Byte) :
    (storeByte mem e).rising = true := by
  match e with
  | (.registerByte _ _, _) => exact h
  | (.inByte k, x) => exact rising_write .inBuf k x mem h
  | (.outByte _, _) => exact h

/-- Byte space accesses inside the spaces all go on, and store into `IN_BUF` alone. -/
theorem busAccesses_byteAccess {l : List (Config.LaneTarget × Byte)} (s : State) (h : ∀ e ∈ l, Inside e) :
    busAccesses s (l.filterMap byteAccess) = .next { s with inBuf := l.foldl storeByte s.inBuf } := by
  induction l generalizing s with
  | nil => rfl
  | cons e l ih =>
    have tail := fun t => ih t fun e' he => h e' (List.mem_cons_of_mem _ he)
    have head := h e (List.mem_cons_self ..)
    match e, head with
    | (.registerByte n p, x), _ => exact tail s
    | (.inByte k, x), ⟨hk, _⟩ =>
      have write : busAccess s (.inWrite k x) = .next { s with inBuf := s.inBuf.write .inBuf k x } :=
        hostAccess_inWrite x (hk k rfl)
      rw [List.filterMap_cons_some (rfl : byteAccess (.inByte k, x) = _), busAccesses, write]
      exact tail _
    | (.outByte k, x), ⟨_, hk⟩ =>
      have write : busAccess s (.outWrite k x) = .next s := hostAccess_outWrite s x (hk k rfl)
      rw [List.filterMap_cons_some (rfl : byteAccess (.outByte k, x) = _), busAccesses, write]
      exact tail s

theorem foldl_storeByte_rising {l : List (Config.LaneTarget × Byte)} {mem : Memory} (h : mem.rising = true) :
    (l.foldl storeByte mem).rising = true := by
  induction l generalizing mem with
  | nil => exact h
  | cons e l ih => exact ih (storeByte_rising h e)

/-- A byte no carried byte goes to stays. -/
theorem read_foldl_storeByte {l : List (Config.LaneTarget × Byte)} {mem : Memory} {k : Nat} (hmem : mem.rising = true)
    (h : ∀ x, (.inByte k, x) ∉ l) : (l.foldl storeByte mem).read .inBuf k = mem.read .inBuf k := by
  induction l generalizing mem with
  | nil => rfl
  | cons e l ih =>
    rw [List.foldl_cons, ih (storeByte_rising hmem e) fun x hx => h x (List.mem_cons_of_mem _ hx)]
    match e, h with
    | (.registerByte n p, x), _ => rfl
    | (.inByte j, x), h =>
      rw [storeByte, read_write .inBuf j x mem hmem, if_neg]
      rintro rfl
      exact h x (List.mem_cons_self ..)
    | (.outByte j, x), _ => rfl

/-- Of the bytes carried to one offset the last one stands there. -/
theorem read_foldl_storeByte_last {front back : List (Config.LaneTarget × Byte)} {mem : Memory} {k : Nat} {x : Byte}
    (hmem : mem.rising = true) (h : ∀ y, (.inByte k, y) ∉ back) :
    ((front ++ (.inByte k, x) :: back).foldl storeByte mem).read .inBuf k = some x := by
  have hfront : (front.foldl storeByte mem).rising = true := foldl_storeByte_rising hmem
  rw [List.foldl_append, List.foldl_cons, read_foldl_storeByte (storeByte_rising hfront _) h, storeByte,
    read_write .inBuf k x _ hfront, if_pos rfl]

/-- A transfer with no lane at a register makes byte space accesses only, and stages nothing. -/
theorem busWrite_of_no_register {b : Config.BusBinding} {c : Config.BusCycle} (staged : Staged) (s : State)
    (h : ∀ n p, ¬ Reaches b c (.registerByte n p)) :
    busWrite b staged s c = (staged, (carried b c).filterMap byteAccess) := by
  have noRegister : (carried b c).filterMap registerNumber = [] := List.eq_nil_iff_forall_not_mem.2 fun n hn => by
    obtain ⟨p, hx⟩ := mem_registerNumber.1 hn
    exact h n p (reaches_iff_carried.2 hx)
  have keep : (carried b c).foldl stageByte staged = staged := by
    refine (List.foldl_ext stageByte (fun st _ => st) staged fun st e he => ?_).trans (List.foldl_fixed ..)
    match e, he with
    | (.registerByte n p, x), he => exact absurd (reaches_iff_carried.2 ⟨x, he⟩) (h n p)
    | (.inByte k, x), _ => rfl
    | (.outByte k, x), _ => rfl
  simp [busWrite, noRegister, keep]

/-- The accesses of the lanes before one outside the spaces go on, and that one refuses the cycle. -/
theorem busCycle_refused_at_lane {b : Config.BusBinding} {c : Config.BusCycle} {staged : Staged} {s : State} {i : Nat}
    {e : Config.LaneTarget × Byte} {a : Access} {r : Refusal} (hnow : WritesNow b c) (hi : carriedByLane b c i = some e)
    (hbefore : ∀ j < i, LaneInside b c j) (ha : byteAccess e = some a) (hr : ∀ t, busAccess t a = .refused r) :
    busCycle b ⟨s, staged⟩ c = .refused r := by
  obtain ⟨front, back, hsplit, hfront, -⟩ := carried_split hi
  have inside : ∀ e' ∈ front, Inside e' := fun e' he => by
    obtain ⟨j, hj, hje⟩ := hfront e' he
    exact inside_of_lane (hbefore j hj) hje
  refine ((writeCycles b).performs c staged s hnow).2.2 r ?_
  rw [busWrite_accesses, hsplit, List.filterMap_append, List.filterMap_cons_some ha, List.append_assoc, busAccesses_append,
    busAccesses_byteAccess s inside]
  simp only [List.cons_append, busAccesses, hr]

theorem byteCycles (b : Config.BusBinding) : ByteCycles b where
  writes c staged s hnow hwf hreg hinside := by
    have inside : ∀ e ∈ carried b c, Inside e := fun e he => by
      obtain ⟨i, hi, hl, hx⟩ := mem_carried.1 he
      exact inside_of_lane (hinside i hi) (carriedByLane_eq_some.2 ⟨hl, hx⟩)
    have hmem := wf_rising hwf
    have transfer := busWrite_of_no_register staged s hreg
    have cycle := ((writeCycles b).performs c staged s hnow).1 _ (by rw [transfer]; exact busAccesses_byteAccess s inside)
    rw [transfer] at cycle
    refine ⟨{ s with inBuf := (carried b c).foldl storeByte s.inBuf }, cycle, rfl, ?_, ?_⟩
    · intro i k x hx hl hlast
      obtain ⟨front, back, hsplit, -, hback⟩ := carried_split (carriedByLane_of_lane hl hx)
      rw [hsplit]
      refine read_foldl_storeByte_last hmem fun y hy => ?_
      obtain ⟨j, hj, hij, hje⟩ := hback _ hy
      exact hlast j hj hij (carriedByLane_eq_some.1 hje).1
    · intro k hk
      exact read_foldl_storeByte hmem fun x hx => hk (reaches_iff_carried.2 ⟨x, hx⟩)
  refuses c staged s i k hnow hi hbefore := by
    have hx := List.getElem?_eq_getElem hi
    refine ⟨fun hl hk => ?_, fun hl hk => ?_⟩
    · exact busCycle_refused_at_lane hnow (carriedByLane_of_lane hl hx) hbefore rfl
        fun t => hostAccess_inBuf_outside t (.inr ⟨c.lanes[i], rfl⟩) hk
    · exact busCycle_refused_at_lane hnow (carriedByLane_of_lane hl hx) hbefore rfl
        fun t => hostAccess_outBuf_outside t (.inr ⟨c.lanes[i], rfl⟩) hk

end Sys2Proof.Proofs
end

section
/-! SUPPORT. Read cycles lane by lane, the cycles that make no access, and with them the whole of what a bus does under any
binding (20_memory.md R37 to R39; log 9). -/

namespace Sys2Proof.Proofs

open Sys2Proof.Machine Sys2Proof.Laws

/-! ## What one lane answers -/

theorem wordByte_setWidth (x : Byte) : wordByte (x.setWidth 64) 0 = x := by
  rw [wordByte_eq_extract]
  apply BitVec.eq_of_toNat_eq
  have := x.isLt
  simp
  omega

/-- A lane bound to a byte space answers the byte that was recorded. -/
theorem laneByte_of_recorded {order : Config.ByteOrder} {s : State} {target : Config.LaneTarget} {a : Access} {x : Byte}
    (ha : laneAccess order target = (a, 0)) (h : hostAccess s a = .next (s.recordRead (x.setWidth 64))) :
    laneByte order s (some target) = .next (some x) := by
  simp [laneByte, ha, h, wordByte_setWidth]

theorem laneByte_of_shows {order : Config.ByteOrder} {s : State} {x : Option Byte} {target : Option Config.LaneTarget}
    (h : LaneShows order s x target) : laneByte order s target = .next x := by
  match target, h with
  | none, h => subst h; rfl
  | some (.registerByte n p), ⟨w, hw, hx⟩ => rw [laneByte_register order p hw, hx]
  | some (.inByte k), ⟨hk, y, hy, hx⟩ =>
    subst hx
    exact laneByte_of_recorded rfl (hostAccess_inRead_eq_next.2 ⟨hk, y, hy, rfl⟩)
  | some (.outByte k), ⟨hk, hx⟩ =>
    rw [hx, read_outBuf]
    exact laneByte_of_recorded rfl (hostAccess_outRead_eq_next.2 ⟨hk, rfl⟩)

theorem laneByte_of_fault {order : Config.ByteOrder} {s : State} {target : Config.LaneTarget} {e : Fault}
    (h : hostAccess s (laneAccess order target).1 = .fault e) : laneByte order s (some target) = .fault e := by
  simp only [laneByte, h]

theorem laneByte_of_refused {order : Config.ByteOrder} {s : State} {target : Config.LaneTarget} {r : Refusal}
    (h : hostAccess s (laneAccess order target).1 = .refused r) : laneByte order s (some target) = .refused r := by
  simp only [laneByte, h]

/-! ## The lanes of a read -/

section Read

variable {b : Config.BusBinding} {c : Config.BusCycle} {seen : Nat → State}

/-- The block a lane is read from is the one that `seenBy` names. -/
theorem seenBy_eq (b : Config.BusBinding) (seen : Nat → State) (c : Config.BusCycle) (i : Nat) :
    seen (if b.readsAtomically c then 0 else i) = seenBy b seen c i := by
  unfold seenBy
  cases b.readsAtomically c <;> rfl

theorem readLanes_of_shows {count : Nat} {shown : Nat → Option Byte}
    (h : ∀ i < count, LaneShows b.numericOrder (seenBy b seen c i) (shown i) (b.lane c i)) :
    readLanes b seen c count = .next ((List.range count).map shown) :=
  readLanes_of_lanes fun i hi => by
    rw [seenBy_eq b seen c i]
    exact laneByte_of_shows (h i hi)

/-- A read that a lane has stopped is not taken up again by a higher lane. -/
theorem readLanes_of_stopped {i count : Nat} (hi : i ≤ count) (h : ∀ bytes, readLanes b seen c i ≠ .next bytes) :
    readLanes b seen c count = readLanes b seen c i := by
  induction count, hi using Nat.le_induction with
  | base => rfl
  | succ j _ ih =>
    rw [readLanes, ih]
    split
    · next bytes he => exact absurd he (h bytes)
    · next e he => exact he.symm
    · next r he => exact he.symm

/-- The first lane that gives no byte decides the outcome of the read. -/
theorem readLanes_stops {i count : Nat} (hi : i < count)
    (hbefore : ∀ j < i, ∃ x, LaneShows b.numericOrder (seenBy b seen c j) x (b.lane c j)) :
    (∀ e, laneByte b.numericOrder (seenBy b seen c i) (b.lane c i) = .fault e → readLanes b seen c count = .fault e) ∧
    ∀ r, laneByte b.numericOrder (seenBy b seen c i) (b.lane c i) = .refused r → readLanes b seen c count = .refused r := by
  choose! shown hshown using hbefore
  have before := readLanes_of_shows hshown
  refine ⟨fun e he => ?_, fun r hr => ?_⟩
  · have stop : readLanes b seen c (i + 1) = .fault e := by simp only [readLanes, before, seenBy_eq, he]
    rw [readLanes_of_stopped hi (by simp [stop]), stop]
  · have stop : readLanes b seen c (i + 1) = .refused r := by simp only [readLanes, before, seenBy_eq, hr]
    rw [readLanes_of_stopped hi (by simp [stop]), stop]

theorem busRead_of_takes (htakes : takes b c = true) (hread : c.isWrite = false) :
    busRead b seen c = readLanes b seen c c.lanes.length := by
  simp [busRead, htakes, hread]

end Read

theorem readCycles (b : Config.BusBinding) : ReadCycles b where
  answers c seen shown _ htakes hread hshown := by
    rw [busRead_of_takes htakes hread]
    exact readLanes_of_shows hshown
  stops c seen i _ htakes hread hi hbefore := by
    rw [busRead_of_takes htakes hread]
    obtain ⟨faults, refuses⟩ := readLanes_stops hi hbefore
    refine ⟨fun n p e hl he => ?_, fun k hl hk hnone => ?_, fun k hl hk => ?_, fun k hl hk => ?_⟩
    · exact faults e (hl ▸ laneByte_of_fault (hostAccess_regRead_of_error he))
    · exact faults _ (hl ▸ laneByte_of_fault (hostAccess_inRead_of_none hk hnone))
    · exact refuses _ (hl ▸ laneByte_of_refused (hostAccess_inBuf_outside _ (.inl rfl) hk))
    · exact refuses _ (hl ▸ laneByte_of_refused (hostAccess_outBuf_outside _ (.inl rfl) hk))

/-! ## Cycles without an access -/

theorem takes_of_reset {b : Config.BusBinding} {c : Config.BusCycle} (h : b.assertsReset c = true) : takes b c = false := by
  simp [takes, h]

theorem busRead_of_silent {b : Config.BusBinding} {c : Config.BusCycle} (seen : Nat → State)
    (h : takes b c = false ∨ c.isWrite = true) : busRead b seen c = .next [] := by
  rcases h with h | h <;> simp [busRead, h]

theorem otherCycles (b : Config.BusBinding) : OtherCycles b where
  reset c staged s hreset := by
    refine ⟨resetBlock s, if_pos hreset, ?_⟩
    rw [step_reset rfl]
    rfl
  nothing c staged s hreset h := by
    rcases h with h | h <;> simp [busCycle, hreset, h]
  silent c seen h := by
    rcases h with h | h
    · exact busRead_of_silent seen (.inl (takes_of_reset h))
    · exact busRead_of_silent seen h

/-- Settles O52, part by part. -/
theorem busBytesCarryTheNumber : Obligations.BusBytesCarryTheNumber := fun b =>
  ⟨numberBytes b.numericOrder, registerTransfers b, writeCycles b, registerCycles b, byteCycles b, readCycles b, otherCycles b⟩

end Sys2Proof.Proofs
end

section
/-! SUPPORT. Decoding and encoding: a word read back from its bytes, a frame cut into its fields, a command word cut into bit 0
and the rest (30_encoding.md R50 to R60). -/

namespace Sys2Proof.Proofs

open Sys2Proof.Machine Sys2Proof.Laws

/-! ## Fields read back from their bytes -/

theorem be32_of_be32Bytes {byte? : Nat → Option Byte} {o : Nat} {x : Word32}
    (h : ∀ k < 4, byte? (o + k) = (be32Bytes x)[k]?) : be32 (fun k => (byte? k).getD 0#8) o = x := by
  have h0 : byte? o = some (BitVec.ofNat 8 (x.toNat / 2 ^ 24)) := h 0 (by decide)
  have h1 : byte? (o + 1) = some (BitVec.ofNat 8 (x.toNat / 2 ^ 16)) := h 1 (by decide)
  have h2 : byte? (o + 2) = some (BitVec.ofNat 8 (x.toNat / 2 ^ 8)) := h 2 (by decide)
  have h3 : byte? (o + 3) = some (BitVec.ofNat 8 x.toNat) := h 3 (by decide)
  apply BitVec.eq_of_toNat_eq
  rw [be32_toNat, h0, h1, h2, h3]
  have := x.isLt
  simp only [Option.getD_some, BitVec.toNat_ofNat, Nat.reducePow]
  omega

/-- Words read back from their little-endian bytes (00_scope.md R8). -/
theorem wordsAt_of_bytes {n o : Nat} {byte? : Nat → Option Byte} {v : Vector Word n}
    (h : ∀ k < 8 * n, byte? (o + k) = (v.toList.flatMap le64Bytes)[k]?) :
    wordsAt (fun k => (byte? k).getD 0#8) o n = v := by
  apply Vector.ext
  intro i hi
  rw [wordsAt, Vector.getElem_ofFn]
  apply le64_of_wordBytes
  intro k hk
  rw [Nat.add_assoc, h _ (by omega), flatMap_bytes_getElem? _ _ _ hk]
  simp [hi]

theorem extract_wordsAt (byte : Nat → Byte) (o : Nat) {n : Nat} (i : Fin n) {k : Nat} (hk : k < 8) :
    (wordsAt byte o n)[i].extractLsb' (8 * k) 8 = byte (o + 8 * i.val + k) := by
  simp only [wordsAt, Fin.getElem_fin, Vector.getElem_ofFn]
  exact extract_le64 byte _ k hk

theorem length_vectorBytes {n : Nat} (v : Vector Word n) : (v.toList.flatMap le64Bytes).length = 8 * n := by
  rw [length_flatMap_bytes, Vector.length_toList]

/-! ## The fields of a frame (30_encoding.md R50) -/

/-- A part of a list stands at the length of what comes before it. -/
theorem getElem?_middle {α : Type} {front part back : List α} {k : Nat} (hk : k < part.length) :
    (front ++ part ++ back)[front.length + k]? = part[k]? := by
  rw [List.append_assoc, List.getElem?_append_right (by omega), Nat.add_sub_cancel_left, List.getElem?_append_left hk]

section Frame

variable (n : Word32) (h : Vector Word 8) (m : Vector Word 16) (t : Vector Word 2) (f : Byte) {k : Nat}

theorem frameBytes_getElem?_rounds (hk : k < 4) : (frameBytes n h m t f)[0 + k]? = (be32Bytes n)[k]? := by
  have split : frameBytes n h m t f = [] ++ be32Bytes n ++
      (h.toList.flatMap le64Bytes ++ m.toList.flatMap le64Bytes ++ t.toList.flatMap le64Bytes ++ [f]) := by
    simp [frameBytes]
  rw [split]
  exact getElem?_middle hk

theorem frameBytes_getElem?_h (hk : k < 64) : (frameBytes n h m t f)[4 + k]? = (h.toList.flatMap le64Bytes)[k]? := by
  have split : frameBytes n h m t f = be32Bytes n ++ h.toList.flatMap le64Bytes ++
      (m.toList.flatMap le64Bytes ++ t.toList.flatMap le64Bytes ++ [f]) := by
    simp [frameBytes]
  rw [split]
  exact getElem?_middle (by rwa [length_vectorBytes])

theorem frameBytes_getElem?_m (hk : k < 128) : (frameBytes n h m t f)[68 + k]? = (m.toList.flatMap le64Bytes)[k]? := by
  have before : (be32Bytes n ++ h.toList.flatMap le64Bytes).length = 68 := by
    rw [List.length_append, length_vectorBytes]
    rfl
  have split : frameBytes n h m t f = be32Bytes n ++ h.toList.flatMap le64Bytes ++ m.toList.flatMap le64Bytes ++
      (t.toList.flatMap le64Bytes ++ [f]) := by
    simp [frameBytes]
  rw [split, ← before]
  exact getElem?_middle (by rwa [length_vectorBytes])

theorem frameBytes_getElem?_t (hk : k < 16) : (frameBytes n h m t f)[196 + k]? = (t.toList.flatMap le64Bytes)[k]? := by
  have before : (be32Bytes n ++ h.toList.flatMap le64Bytes ++ m.toList.flatMap le64Bytes).length = 196 := by
    rw [List.length_append, List.length_append, length_vectorBytes, length_vectorBytes]
    rfl
  rw [frameBytes, ← before]
  exact getElem?_middle (by rwa [length_vectorBytes])

theorem frameBytes_getElem?_flag : (frameBytes n h m t f)[212]? = some f := by
  have before : (be32Bytes n ++ h.toList.flatMap le64Bytes ++ m.toList.flatMap le64Bytes ++ t.toList.flatMap le64Bytes).length
      = 212 := by
    rw [List.length_append, List.length_append, List.length_append, length_vectorBytes, length_vectorBytes, length_vectorBytes]
    rfl
  rw [frameBytes, ← before]
  exact List.getElem?_concat_length

theorem frameFields_frameBytes :
    frameFields (fun k => ((frameBytes n h m t f)[k]?).getD 0#8) f = .blake2f n h m t f := by
  rw [frameFields, be32_of_be32Bytes fun _ => frameBytes_getElem?_rounds n h m t f,
    wordsAt_of_bytes fun _ => frameBytes_getElem?_h n h m t f, wordsAt_of_bytes fun _ => frameBytes_getElem?_m n h m t f,
    wordsAt_of_bytes fun _ => frameBytes_getElem?_t n h m t f]

end Frame

/-! ## The decoder, by length and by flag byte (40_decoder.md R65 to R67) -/

theorem decodeFrame_of_other_length {len : Word} {byte? : Nat → Option Byte} (h : len ≠ 213#64) :
    decodeFrame len byte? = .error .lengthNot213 :=
  if_pos h

theorem decodeFrame_of_all_bytes (len : Word) {byte? : Nat → Option Byte} (h : ∀ k < 213, (byte? k).isSome = true) :
    decodeFrame len byte? = decodeFrame len (fun k => some ((byte? k).getD 0#8)) :=
  decodeFrame_congr _ _ _ fun k hk => by
    obtain ⟨b, hb⟩ := Option.isSome_iff_exists.1 (h k hk)
    rw [hb, Option.getD_some]

theorem decodeFrame_of_legal {byte : Nat → Byte} (hf : byte 212 = 0x00#8 ∨ byte 212 = 0x01#8) :
    decodeFrame 213#64 (fun k => some (byte k)) = .ok (frameFields byte (byte 212)) := by
  rw [decodeFrame_of_bytes, if_neg (by simp), if_pos ((legalFlag_iff _).2 hf)]

theorem decode_frameBytes (n : Word32) (h : Vector Word 8) (m : Vector Word 16) (t : Vector Word 2) {f : Byte}
    (hf : legalFlag f = true) : decode (.frame 213#64 (frameBytes n h m t f)) = .ok (.blake2f n h m t f) := by
  have flag : ((frameBytes n h m t f)[212]?).getD 0#8 = f := by rw [frameBytes_getElem?_flag, Option.getD_some]
  have all : ∀ k < 213, ((frameBytes n h m t f)[k]?).isSome = true := by simp [length_frameBytes]
  rw [decode, decodeFrame_of_all_bytes _ all, decodeFrame_of_legal (by rwa [flag, ← legalFlag_iff]), flag,
    frameFields_frameBytes]

/-! ## Command words (30_encoding.md R56) -/

theorem decodeCommand_of_bit_set {w : Word} (h : w.getLsbD 0 = true) : decodeCommand w = .ok (.start (w.extractLsb' 1 63)) := by
  simp only [decodeCommand, h, if_true]

theorem decode_encode_start (ignored : BitVec 63) : decode (encode (.start ignored)) = .ok (.start ignored) := by
  rw [encode, decode, decodeCommand_of_bit_set (EncodedLength.start ignored)]
  congr 2
  exact BitVec.extractLsb'_append_eq_left

/-- A word with bit 0 set is its bits 63..1 with a 1 after them. -/
theorem encode_start_of_bit_set {w : Word} (h : w.getLsbD 0 = true) : encode (.start (w.extractLsb' 1 63)) = .command w := by
  rw [encode]
  congr 1
  apply BitVec.eq_of_getLsbD_eq
  intro i hi
  rw [BitVec.getLsbD_append]
  cases i with
  | zero => simpa using h.symm
  | succ i => simp [show i < 63 by omega, Nat.add_comm 1 i]

/-! ## The structured operand (30_encoding.md R60) -/

theorem legalFlag_flagByte (final : Bool) : legalFlag (flagByte final) = true := by
  cases final <;> rfl

theorem padMessage_getElem (m : List Word) (i : Fin 16) : (padMessage m)[i] = (m[i.val]?).getD 0 := by
  simp [padMessage]

/-! ## The statements -/

/-- Settles O1, format by format: the fields of a frame and the bits of a command word. -/
theorem decodeAfterEncode : Obligations.DecodeAfterEncode := by
  intro i hwf
  cases i with
  | blake2f n h m t f => exact decode_frameBytes n h m t hwf
  | start ignored => exact decode_encode_start ignored

/-- Settles O3: the length, then the flag byte, and no other test. -/
theorem legalFramesAreExactlyThese : Obligations.LegalFramesAreExactlyThese := by
  intro len byte
  constructor
  · rintro ⟨_, _, _, _, _, hdec⟩
    obtain ⟨hlen, _, _, _, _, f, _, hbyte, hflag, _⟩ := decodeFrame_blake2f hdec
    rw [Option.some.inj hbyte]
    exact ⟨hlen, (legalFlag_iff f).1 hflag⟩
  · rintro ⟨rfl, hflag⟩
    exact ⟨_, _, _, _, _, decodeFrame_of_legal hflag⟩

/-- Settles O6: the fields of a legal frame, byte by byte. -/
theorem fieldBitPositions : Obligations.FieldBitPositions := by
  intro byte hflag
  refine ⟨_, _, _, _, decodeFrame_of_legal hflag, fun k hk => ?_, fun i k => extract_wordsAt byte 4 i,
    fun i k => extract_wordsAt byte 68 i, fun i k => extract_wordsAt byte 196 i⟩
  simpa using extract_be32 byte 0 k hk

/-- Settles O7: bit 0 decides, and the other bits are the operand. -/
theorem commandWordIsStartByBitZero : Obligations.CommandWordIsStartByBitZero := fun _ =>
  ⟨fun hset => ⟨_, decodeCommand_of_bit_set hset, encode_start_of_bit_set hset⟩, decodeCommand_of_bit_clear⟩

/-- Settles O9: the structured operand is the encoding of the call with the padded message. -/
theorem structuredFrameAssembles : Obligations.StructuredFrameAssembles := by
  intro n h m t final hm
  exact ⟨frameBytes n h (padMessage m) t (flagByte final), if_pos hm, length_frameBytes .., padMessage m,
    decode_frameBytes n h _ t (legalFlag_flagByte final), padMessage_getElem m⟩

/-- Settles O8: the decoder evaluated on each of the four words. -/
theorem sampleWordsDecode : Obligations.SampleWordsDecode := by
  unfold Obligations.SampleWordsDecode
  refine ⟨?_, ?_, ?_, ?_⟩
  · decide
  · decide
  · decide +kernel
  · decide +kernel

end Sys2Proof.Proofs
end

section
/-! SUPPORT. The host's statements: `WAIT`, branches, a write to `CMD`, the expansion of `CALL`; and the instruction a step
fetches (30_encoding.md R61 to R63). -/

namespace Sys2Proof.Proofs

open Sys2Proof.Machine Sys2Proof.Laws

/-! ## `WAIT` and branches (30_encoding.md R61) -/

/-- The terminal codes are 2, 3 and 4, the others 0 and 1 (10_state.md R15). -/
theorem terminal_of_toWord (c : Code) :
    (c.toWord = 2 ∨ c.toWord = 3 ∨ c.toWord = 4 → c.terminal = true) ∧ (c.toWord = 0 ∨ c.toWord = 1 → c.terminal = false) := by
  cases c <;> decide

theorem step_wait {s : State} (turn : s.nextTurn = .host) (hop : s.host.ops[s.host.pc]? = some .wait) :
    step s = .next (hostWait s.pop) :=
  step_host turn hop

theorem step_branch {s : State} {cond : Cond} {target : Nat} (turn : s.nextTurn = .host)
    (hop : s.host.ops[s.host.pc]? = some (.branch cond target)) : step s = .next (hostBranch cond target s.pop) :=
  step_host turn hop

/-- Settles O49: `WAIT` records the code and moves on exactly when it is terminal. -/
theorem waitRepeatsUntilTerminal : Obligations.WaitRepeatsUntilTerminal := by
  intro s turn hop
  obtain ⟨stops, stays⟩ := terminal_of_toWord s.status
  refine ⟨_, step_wait turn hop, rfl, rfl, fun hcode => ?_, fun hcode => ?_⟩
  · exact if_pos (stops hcode)
  · exact if_neg (by simp [stays hcode])

/-- Settles O50: a branch moves the host only, to the target exactly when its condition holds of the last value read. -/
theorem branchFollowsTheLastRead : Obligations.BranchFollowsTheLastRead := by
  intro s cond target turn hop
  refine ⟨_, step_branch turn hop, rfl, rfl, rfl, ?_, fun v last earlier hreads => ⟨?_, ?_⟩⟩
  · rintro rfl
    rfl
  · rintro rfl
    simp [hostBranch, Cond.holds, hreads]
  · rintro rfl
    simp [hostBranch, Cond.holds, hreads, ite_not]

/-! ## The instruction a step fetches (30_encoding.md R63, 40_decoder.md R70) -/

theorem fetchController_of_decoded {s : State} {i : Instr} (hctl : s.ctl = .decode) (hlen : s.lLenHasValue = true)
    (hdec : s.decodeLatched = .ok i) : fetchController s = .instr i s := by
  simp only [fetchController, hctl, hlen, hdec, if_true]

theorem fetchController_of_call {s : State}
    (hctl : s.ctl = .gascheck ∨ s.ctl = .init ∨ s.ctl = .round ∨ s.ctl = .final) :
    fetchController s = .instr s.currentCall s := by
  rcases hctl with hctl | hctl | hctl | hctl <;> simp only [fetchController, hctl]

/-- Settles O33: each of the two decoders, and the call in progress, through `exec`. -/
theorem stepRunsTheDecodedInstruction : Obligations.StepRunsTheDecodedInstruction := by
  refine ⟨fun s i turn hctl hlen hdec => ?_, fun s turn hctl => ?_, fun s w i turn hop hdec => ?_⟩
  · rw [step_controller turn, fetchController_of_decoded (s := s.pop) hctl hlen hdec]
    rfl
  · rw [step_controller turn, fetchController_of_call (s := s.pop) hctl]
    rfl
  · rw [step_access turn hop, busAccess_command hdec]
    rfl

/-! ## The expansion of `CALL` (30_encoding.md R62) -/

/-- Settles O51: the operand's bytes are all the expansion looks at. -/
theorem callExpandsToFiveStatements : Obligations.CallExpandsToFiveStatements := by
  intro frame bytes gas hbytes
  simp only [Stmt.expand, hbytes]

end Sys2Proof.Proofs
end

section
/-! SUPPORT. The controller's run: with its inputs latched it goes on to DONE in a number of steps that the latches fix, and the
result registers then hold `run` of the latches (42_controller.md R109 to R111). -/

namespace Sys2Proof.Proofs

open Sys2Proof.Machine Sys2Proof.Laws

/-! ## Runs of the machine -/

theorem core_run_step {s t : State} (h : step s = .next t) (k : Nat) : core.run (k + 1) s = core.run k t := by
  simp only [Host.Core.run, show core.step s = .next t from h]

theorem core_run_add {s t : State} {a : Nat} (h : core.run a s = .next t) (b : Nat) : core.run (a + b) s = core.run b t := by
  induction a generalizing s with
  | zero =>
    cases h
    rw [Nat.zero_add]
  | succ a ih =>
    rw [Nat.add_right_comm]
    cases hs : step s with
    | next u => rw [core_run_step hs] at h ⊢; exact ih h
    | fault e => simp only [Host.Core.run, show core.step s = .fault e from hs] at h; cases h
    | refused e => simp only [Host.Core.run, show core.step s = .refused e from hs] at h; cases h

/-! ## A ready controller has a step (42_controller.md R109, 70_reset_and_hazards.md R142) -/

/-- With every byte that a legal length needs, the decoder misses none. -/
theorem decodeFrame_ne_noByte {len : Word} {byte? : Nat → Option Byte}
    (h : len = 213#64 → ∀ k < 213, (byte? k).isSome = true) (k : Nat) : decodeFrame len byte? ≠ .error (.noByte k) := by
  by_cases hlen : len = 213#64
  · rw [decodeFrame_of_all_bytes len (h hlen), decodeFrame_of_bytes]
    split_ifs <;> simp
  · simp [decodeFrame_of_other_length hlen]

theorem step_of_rejected {s : State} {e : Reject} (turn : s.nextTurn = .controller) (hctl : s.ctl = .decode)
    (hlen : s.lLenHasValue = true) (hdec : s.decodeLatched = .error e) (he : ∀ k, e ≠ .noByte k) :
    step s = .next (raise .outOfRange s.pop) := by
  have hdec : s.pop.decodeLatched = .error e := hdec
  rw [step_controller turn]
  simp only [fetchController, pop_ctl, hctl, pop_lLenHasValue, hlen, if_true, hdec]
  cases e with
  | noByte k => exact absurd rfl (he k)
  | lengthNot213 => rfl
  | flagNotBool => rfl
  | notStart => rfl

theorem exec_blake2f_of_budget (n : Word32) (h : Vector Word 8) (m : Vector Word 16) (t : Vector Word 2) (f : Byte) {s : State}
    (hgas : s.lGasHasValue = true) : ∃ u, exec (.blake2f n h m t f) s = .next u := by
  cases hctl : s.ctl with
  | gascheck =>
    simp only [exec, execBlake2f, hctl, gasCheckStep, hgas, if_true]
    exact ⟨_, rfl⟩
  | _ =>
    simp only [exec, execBlake2f, hctl]
    exact ⟨_, rfl⟩

theorem step_of_ready {s : State} (turn : s.nextTurn = .controller) (hready : LatchReady s) : ∃ t, step s = .next t := by
  obtain ⟨hlen, hgas, hframe⟩ := hready
  obtain ⟨decodes, continues, -⟩ := stepRunsTheDecodedInstruction
  cases hctl : s.ctl with
  | idle | done =>
    rw [step_controller turn, fetchController, pop_ctl, hctl]
    exact ⟨s.pop, rfl⟩
  | decode =>
    cases hdec : s.decodeLatched with
    | ok i =>
      obtain ⟨_, n, h, m, t, f, rfl, -⟩ := decodeFrame_blake2f hdec
      rw [decodes s _ turn hctl hlen hdec]
      exact exec_blake2f_of_budget n h m t f hgas
    | error e =>
      exact ⟨_, step_of_rejected turn hctl hlen hdec fun k hk => decodeFrame_ne_noByte hframe k (hk ▸ hdec)⟩
  | gascheck | init | round | final =>
    rw [continues s turn (by simp [hctl])]
    exact exec_blake2f_of_budget _ _ _ _ _ hgas

/-! ## How many steps are left (42_controller.md R111) -/

/-- The controller steps of a decoded call from GASCHECK on: the gate alone, or the gate, INIT, the rounds and FINAL. -/
def callSteps (gas : Word) (rounds : Word32) : Nat := if gas < gasCost rounds then 1 else rounds.toNat + 3

/-- The controller steps from `s` to DONE. -/
def stepsLeft (s : State) : Nat :=
  match s.ctl with
  | .idle => 0
  | .decode =>
    match s.decodeLatched with
    | .ok (.blake2f n _ _ _ _) => callSteps s.lGas n + 1
    | .ok (.start _) => 1
    | .error _ => 1
  | .gascheck => callSteps s.lGas s.rounds
  | .init => s.rounds.toNat + 2
  | .round => s.rounds.toNat - s.rc.toNat + 1
  | .final => 1
  | .done => 0

theorem stepsLeft_done {s : State} (h : s.ctl = .done) : stepsLeft s = 0 := by
  simp only [stepsLeft, h]

theorem stepsLeft_decode {s : State} {n : Word32} {h : Vector Word 8} {m : Vector Word 16} {t : Vector Word 2} {f : Byte}
    (hctl : s.ctl = .decode) (hdec : s.decodeLatched = .ok (.blake2f n h m t f)) :
    stepsLeft s = callSteps s.lGas n + 1 := by
  simp only [stepsLeft, hctl, hdec]

theorem stepsLeft_decode_rejected {s : State} {e : Reject} (hctl : s.ctl = .decode) (hdec : s.decodeLatched = .error e) :
    stepsLeft s = 1 := by
  simp only [stepsLeft, hctl, hdec]

theorem stepsLeft_gascheck {s : State} (hctl : s.ctl = .gascheck) : stepsLeft s = callSteps s.lGas s.rounds := by
  simp only [stepsLeft, hctl]

theorem stepsLeft_init {s : State} (hctl : s.ctl = .init) : stepsLeft s = s.rounds.toNat + 2 := by
  simp only [stepsLeft, hctl]

theorem stepsLeft_round {s : State} (hctl : s.ctl = .round) : stepsLeft s = s.rounds.toNat - s.rc.toNat + 1 := by
  simp only [stepsLeft, hctl]

theorem stepsLeft_final {s : State} (hctl : s.ctl = .final) : stepsLeft s = 1 := by
  simp only [stepsLeft, hctl]

/-- INIT and ROUND go to FINAL exactly when `RC` has reached `ROUNDS`, so that in both cases the rounds to come and FINAL are
left. -/
theorem stepsLeft_mixing {s : State} (hctl : s.ctl = if s.rc = s.rounds then .final else .round) :
    stepsLeft s = s.rounds.toNat - s.rc.toNat + 1 := by
  by_cases hrc : s.rc = s.rounds
  · rw [stepsLeft_final (by rw [hctl, if_pos hrc]), hrc, Nat.sub_self]
  · exact stepsLeft_round (by rw [hctl, if_neg hrc])

theorem stepsLeft_initStep (s : State) : stepsLeft (initStep s) = s.rounds.toNat + 1 := by
  rw [stepsLeft_mixing ((initStep_ctl s).trans (if_congr eq_comm rfl rfl))]
  simp

theorem stepsLeft_roundStep {s : State} (h : s.rc.toNat < s.rounds.toNat) :
    stepsLeft (roundStep s) + 1 = s.rounds.toNat - s.rc.toNat + 1 := by
  have next : (s.rc + 1).toNat = s.rc.toNat + 1 := by
    have := s.rounds.isLt
    bv_omega
  rw [stepsLeft_mixing (by simp), roundStep_rounds, roundStep_rc, next]
  omega

/-- Each controller step of an operation takes one off. -/
theorem stepsLeft_of_step {s t : State} (hs : Inv s) (turn : s.nextTurn = .controller) (hbusy : s.ctl.busy = true)
    (h : step s = .next t) : stepsLeft s = stepsLeft t + 1 := by
  cases step_cases h with
  | reset other | start other | host other | access other => exact absurd (other.symm.trans turn) (by decide)
  | waits _ hctl => exact absurd (hctl.symm.trans hbusy) (by decide)
  | decode n hh m t f _ hctl _ hdec => rw [stepsLeft_decode hctl hdec, stepsLeft_gascheck rfl]; rfl
  | illegal e _ hctl _ hdec => rw [stepsLeft_decode_rejected hctl hdec, stepsLeft_done rfl]
  | tooDear _ hctl _ hlt => rw [stepsLeft_gascheck hctl, stepsLeft_done rfl, callSteps, if_pos hlt]
  | passed _ hctl _ hge => rw [stepsLeft_gascheck hctl, stepsLeft_init rfl, callSteps, if_neg hge]; rfl
  | init _ hctl => rw [stepsLeft_init hctl, stepsLeft_initStep]; rfl
  | round _ hctl => rw [stepsLeft_round hctl]; exact (stepsLeft_roundStep (s := s.pop) (hs.count_round hctl)).symm
  | final _ hctl => rw [stepsLeft_final hctl, stepsLeft_done (finalStep_ctl _)]

/-! ## An operation runs to DONE -/

/-- What a controller step keeps: the latches and the host (10_state.md R29, 20_memory.md R42). -/
theorem controllerStep_frame {s t : State} (turn : s.nextTurn = .controller) (h : step s = .next t) :
    t.lLen = s.lLen ∧ t.lLenHasValue = s.lLenHasValue ∧ t.lBuf = s.lBuf ∧ t.lGas = s.lGas ∧
      t.lGasHasValue = s.lGasHasValue ∧ t.host = s.host ∧ t.turns = s.turns.tail := by
  cases step_cases h with
  | reset other | start other | host other | access other => exact absurd (other.symm.trans turn) (by decide)
  | _ => simp

theorem ctl_ne_idle_of_step {s t : State} (turn : s.nextTurn = .controller) (hctl : s.ctl ≠ .idle) (h : step s = .next t) :
    t.ctl ≠ .idle := by
  cases step_cases h with
  | reset other | start other | host other | access other => exact absurd (other.symm.trans turn) (by decide)
  | waits => exact hctl
  | init => rw [initStep_ctl]; split <;> simp
  | round => rw [roundStep_ctl]; split <;> simp
  | _ => simp

/-- An operation on the latched inputs `len`, `buf`, `gas` is running or done, the host standing at `host` meanwhile; with no
schedule left the controller moves while it is busy (log 2). -/
structure Underway (len : Word) (buf : Memory) (gas : Word) (host : HostSide) (s : State) : Prop where
  inv : Inv s
  started : s.ctl ≠ .idle
  ready : LatchReady s
  schedule : s.turns = []
  length_eq : s.lLen = len
  frame_eq : s.lBuf = buf
  budget_eq : s.lGas = gas
  host_eq : s.host = host

section Run

variable {len : Word} {buf : Memory} {gas : Word} {host : HostSide} {s : State}

theorem Underway.turn (hs : Underway len buf gas host s) (hbusy : s.ctl.busy = true) : s.nextTurn = .controller := by
  rw [nextTurn_nil hs.schedule, hbusy, if_pos rfl]

theorem Underway.busy_or_done (hs : Underway len buf gas host s) : s.ctl.busy = true ∨ s.ctl = .done := by
  cases hctl : s.ctl with
  | idle => exact absurd hctl hs.started
  | done => exact .inr rfl
  | _ => exact .inl rfl

/-- In DONE the result registers hold `run` of the latched inputs (42_controller.md R110). -/
theorem Underway.result (hs : Underway len buf gas host s) (hdone : s.ctl = .done) :
    Machine.run len (buf.read .lBuf) gas = some s.result := by
  rw [← hs.length_eq, ← hs.frame_eq, ← hs.budget_eq]
  exact hs.inv.finished hdone

theorem Underway.has_step (hs : Underway len buf gas host s) (hbusy : s.ctl.busy = true) :
    ∃ t, step s = .next t ∧ Underway len buf gas host t ∧ stepsLeft s = stepsLeft t + 1 := by
  have turn := hs.turn hbusy
  obtain ⟨t, h⟩ := step_of_ready turn hs.ready
  obtain ⟨hlen, hlenv, hbuf, hgas, hgasv, hhost, hturns⟩ := controllerStep_frame turn h
  obtain ⟨length, budget, frame⟩ := hs.ready
  refine ⟨t, h, ?_, stepsLeft_of_step hs.inv turn hbusy h⟩
  exact {
    inv := everyStepKeepsTheInvariant s t hs.inv h
    started := ctl_ne_idle_of_step turn hs.started h
    ready := ⟨hlenv.trans length, hgasv.trans budget, by rwa [hlen, hbuf]⟩
    schedule := by rw [hturns, hs.schedule, List.tail_nil]
    length_eq := hlen.trans hs.length_eq
    frame_eq := hbuf.trans hs.frame_eq
    budget_eq := hgas.trans hs.budget_eq
    host_eq := hhost.trans hs.host_eq }

theorem Underway.runs_to_done (hs : Underway len buf gas host s) :
    ∃ t, core.run (stepsLeft s) s = .next t ∧ Underway len buf gas host t ∧ t.ctl = .done := by
  induction hk : stepsLeft s generalizing s with
  | zero =>
    rcases hs.busy_or_done with hbusy | hdone
    · obtain ⟨t, _, _, left⟩ := hs.has_step hbusy
      omega
    · exact ⟨s, rfl, hs, hdone⟩
  | succ k ih =>
    rcases hs.busy_or_done with hbusy | hdone
    · obtain ⟨t, ht, underway, left⟩ := hs.has_step hbusy
      obtain ⟨u, hu, done⟩ := ih underway (by omega)
      exact ⟨u, (core_run_step ht k).trans hu, done⟩
    · rw [stepsLeft_done hdone] at hk
      omega

end Run

end Sys2Proof.Proofs
end

section
/-! SUPPORT. `CALL`: its assembly, the host's writes, START, the controller's run and `WAIT`, one after the other
(30_encoding.md R62, 42_controller.md R110). -/

namespace Sys2Proof.Proofs

open Sys2Proof.Machine Sys2Proof.Laws

/-! ## Runs joined together -/

/-- The machine gets from `s` to `t`. -/
def LeadsTo (s t : State) : Prop := ∃ n, core.run n s = .next t

theorem LeadsTo.refl (s : State) : LeadsTo s s := ⟨0, rfl⟩

theorem LeadsTo.trans {s t u : State} (hst : LeadsTo s t) (htu : LeadsTo t u) : LeadsTo s u := by
  obtain ⟨a, ha⟩ := hst
  obtain ⟨b, hb⟩ := htu
  exact ⟨a + b, (core_run_add ha b).trans hb⟩

theorem LeadsTo.of_step {s t : State} (h : step s = .next t) : LeadsTo s t := ⟨1, core_run_step h 0⟩

/-! ## The host's statements while the block waits -/

/-- No operation runs and no schedule is left, so that the host moves (log 2), the statements `rest` still before it. -/
structure Waiting (rest : List HostOp) (s : State) : Prop where
  schedule : s.turns = []
  idle : s.ctl.busy = false
  rest_eq : s.host.ops.drop s.host.pc = rest

theorem pop_of_nil {s : State} (h : s.turns = []) : s.pop = s := by
  rw [State.pop, h, List.tail_nil, ← h]

/-- `s` after a `WR`. -/
def afterWr (s : State) (n : Nat) (w : Word) : State := (s.hostGoto (s.host.pc + 1)).regWrite w n

/-- `s` after a `WRBUF`. -/
def afterWrbuf (s : State) (offset : Nat) (bytes : List Byte) : State :=
  { s.hostGoto (s.host.pc + bytes.length) with inBuf := s.inBuf.writeBytes .inBuf offset bytes }

theorem afterWrbuf_cons (s : State) (offset : Nat) (b : Byte) (bytes : List Byte) :
    afterWrbuf s offset (b :: bytes) = afterWrbuf (afterWrbuf s offset [b]) (offset + 1) bytes := by
  rw [afterWrbuf, List.length_cons, Nat.add_comm bytes.length, ← Nat.add_assoc]
  rfl

section Host

variable {s : State} {op : HostOp} {rest : List HostOp}

theorem Waiting.turn (hs : Waiting rest s) : s.nextTurn = .host := by
  rw [nextTurn_nil hs.schedule, hs.idle]
  rfl

theorem Waiting.statement (hs : Waiting (op :: rest) s) : s.host.ops[s.host.pc]? = some op := by
  rw [← Nat.add_zero s.host.pc, ← List.getElem?_drop, hs.rest_eq]
  rfl

theorem Waiting.moved (hs : Waiting (op :: rest) s) : Waiting rest (s.hostGoto (s.host.pc + 1)) where
  schedule := hs.schedule
  idle := hs.idle
  rest_eq := by
    rw [hostGoto_host, ← List.tail_drop, hs.rest_eq, List.tail_cons]

theorem Waiting.access {a : Access} (hs : Waiting (.access a :: rest) s) :
    step s = busAccess (s.hostGoto (s.host.pc + 1)) a := by
  rw [step_access hs.turn hs.statement, pop_of_nil hs.schedule]

/-- `WR` to a register other than `CMD` (42_controller.md R116). -/
theorem Waiting.wr {n : Nat} {w : Word} (hs : Waiting (.access (.regWrite n w) :: rest) s) (hn : n ≠ 2) :
    LeadsTo s (afterWr s n w) ∧ Waiting rest (afterWr s n w) := by
  refine ⟨.of_step (hs.access.trans (busAccess_regWrite _ w hn)), ?_⟩
  obtain ⟨schedule, idle, rest_eq⟩ := hs.moved
  unfold afterWr
  rcases regWrite_cases (s.hostGoto (s.host.pc + 1)) w n with ⟨-, e⟩ | ⟨-, e⟩ | ⟨-, e⟩
  all_goals
    rw [e]
    exact ⟨schedule, idle, rest_eq⟩

/-- `WRBUF` inside the byte space stores its bytes (30_encoding.md R61). -/
theorem Waiting.wrbuf {offset : Nat} {bytes : List Byte} (hs : Waiting (writeOps offset bytes ++ rest) s)
    (hin : offset + bytes.length ≤ 213) :
    LeadsTo s (afterWrbuf s offset bytes) ∧ Waiting rest (afterWrbuf s offset bytes) := by
  induction bytes generalizing s offset with
  | nil => exact ⟨.refl s, hs⟩
  | cons b bytes ih =>
    rw [List.length_cons] at hin
    have stored : step s = .next (afterWrbuf s offset [b]) :=
      hs.access.trans (hostAccess_inWrite b (show offset < 213 by omega))
    obtain ⟨schedule, idle, rest_eq⟩ := hs.moved
    obtain ⟨others, waiting⟩ := ih (s := afterWrbuf s offset [b]) ⟨schedule, idle, rest_eq⟩ (by omega)
    rw [afterWrbuf_cons]
    exact ⟨(LeadsTo.of_step stored).trans others, waiting⟩

/-- START is accepted (42_controller.md R100). -/
theorem Waiting.start {w : Word} (hs : Waiting (.access (.regWrite 2 w) :: rest) s) (hbit : w.getLsbD 0 = true) :
    step s = .next (latchInputs (s.hostGoto (s.host.pc + 1))) := by
  rw [hs.access, busAccess_command (decodeCommand_of_bit_set hbit)]
  exact if_neg (by simp [hs.idle])

end Host

/-! ## From START to the end of `WAIT` (42_controller.md R100, R110) -/

theorem inv_latchInputs_of_wf {s : State} (h : s.inBuf.wf .inBuf = true) : Inv (latchInputs s) := by
  have latch : s.inBuf.wf .lBuf = true := h
  constructor <;> simp [h, latch, Ctl.busy]

theorem underway_latchInputs {s : State} (hturns : s.turns = []) (hwf : s.inBuf.wf .inBuf = true) (hboot : BootReady s) :
    Underway s.inLen s.inBuf s.gasBudget s.host (latchInputs s) where
  inv := inv_latchInputs_of_wf hwf
  started := by simp
  ready := ⟨hboot.length_written, hboot.budget_written, hboot.frame_written⟩
  schedule := hturns
  length_eq := rfl
  frame_eq := rfl
  budget_eq := rfl
  host_eq := rfl

/-- In DONE the code is terminal (10_state.md R15). -/
theorem terminal_of_done {s : State} (hs : Inv s) (hdone : s.ctl = .done) : s.status.terminal = true := by
  cases hst : s.status with
  | idle => simpa [hdone] using hs.status_idle.1 hst
  | busy => simpa [hdone, Ctl.busy] using hs.status_busy.1 hst
  | _ => rfl

/-- START and `WAIT`: the host passes its `WAIT` with `run` of the inputs in the result registers. -/
theorem Waiting.start_wait {s : State} {w : Word} {rest : List HostOp}
    (hs : Waiting (.access (.regWrite 2 w) :: .wait :: rest) s) (hbit : w.getLsbD 0 = true)
    (hwf : s.inBuf.wf .inBuf = true) (hboot : BootReady s) :
    ∃ t, LeadsTo s t ∧ t.ctl = .done ∧ t.host.pc = s.host.pc + 2 ∧
      Machine.run s.inLen (s.inBuf.read .inBuf) s.gasBudget = some t.result := by
  obtain ⟨length, budget, frame⟩ := hboot
  have underway := underway_latchInputs hs.moved.schedule hwf ⟨length, budget, frame⟩
  obtain ⟨t, run, done, hctl⟩ := underway.runs_to_done
  have waiting : Waiting (.wait :: rest) t := ⟨done.schedule, by rw [hctl]; rfl, done.host_eq ▸ hs.moved.rest_eq⟩
  refine ⟨hostWait t.pop, ?_, hctl, ?_, done.result hctl⟩
  · exact (LeadsTo.of_step (hs.start hbit)).trans (.trans ⟨_, run⟩ (.of_step (step_wait waiting.turn waiting.statement)))
  · have passed : (hostWait t.pop).host.pc = t.host.pc + 1 := if_pos (terminal_of_done done.inv hctl)
    rw [passed, done.host_eq]
    rfl

/-! ## The inputs that `CALL` writes (30_encoding.md R62) -/

/-- The host steps of `CALL`. -/
def callOps (bytes : List Byte) (gas : Word) : List HostOp :=
  .access (.regWrite 0 (BitVec.ofNat 64 bytes.length)) ::
    (writeOps 0 (bytes.take 213) ++ [.access (.regWrite 1 gas), .access (.regWrite 2 1), .wait])

theorem assemble_call {frame : FrameSyntax} {bytes : List Byte} (gas : Word) (h : frame.bytes = some bytes) :
    assemble [.call frame gas] = some (callOps bytes gas) := by
  simp [assemble, callExpandsToFiveStatements frame bytes gas h, Stmt.ops, callOps]

theorem length_writeOps (offset : Nat) (bytes : List Byte) : (writeOps offset bytes).length = bytes.length := by
  induction bytes generalizing offset with
  | nil => rfl
  | cons b bytes ih => rw [writeOps, List.length_cons, ih, List.length_cons]

/-- `s` as `CALL`'s writes leave it, the host before the START. -/
def callWritten (s : State) (bytes : List Byte) (gas : Word) : State :=
  afterWr (afterWrbuf (afterWr (s.loadHost (callOps bytes gas)) 0 (BitVec.ofNat 64 bytes.length)) 0 (bytes.take 213)) 1 gas

theorem leadsTo_callWritten {s : State} (hturns : s.turns = []) (hidle : s.ctl.busy = false) (bytes : List Byte) (gas : Word) :
    LeadsTo (s.loadHost (callOps bytes gas)) (callWritten s bytes gas) ∧
      Waiting [.access (.regWrite 2 1), .wait] (callWritten s bytes gas) := by
  have loaded : Waiting (callOps bytes gas) (s.loadHost (callOps bytes gas)) := ⟨hturns, hidle, rfl⟩
  obtain ⟨toLength, length⟩ := loaded.wr (by decide)
  obtain ⟨toFrame, frame⟩ := length.wrbuf (by rw [List.length_take]; omega)
  obtain ⟨toBudget, budget⟩ := frame.wr (by decide)
  exact ⟨toLength.trans (toFrame.trans toBudget), budget⟩

section Written

variable (s : State) (bytes : List Byte) (gas : Word)

theorem callWritten_inLen : (callWritten s bytes gas).inLen = BitVec.ofNat 64 bytes.length := rfl

theorem callWritten_inBuf : (callWritten s bytes gas).inBuf = s.inBuf.writeBytes .inBuf 0 (bytes.take 213) := rfl

theorem callWritten_gasBudget : (callWritten s bytes gas).gasBudget = gas := rfl

theorem callWritten_pc_add_two : (callWritten s bytes gas).host.pc + 2 = (callOps bytes gas).length := by
  have pc : (callWritten s bytes gas).host.pc = 0 + 1 + (bytes.take 213).length + 1 := rfl
  simp only [pc, callOps, List.length_cons, List.length_append, length_writeOps, List.length_nil]
  omega

end Written

/-- The length the host writes is 213 exactly for 213 bytes. -/
theorem ofNat_length_eq_213 {bytes : List Byte} (hlen : bytes.length < 2 ^ 64) :
    BitVec.ofNat 64 bytes.length = 213#64 ↔ bytes.length = 213 := by
  bv_omega

section Inputs

variable {s : State} {bytes : List Byte} (hwf : s.inBuf.wf .inBuf = true) (gas : Word)

include hwf

theorem callWritten_wf : (callWritten s bytes gas).inBuf.wf .inBuf = true := by
  rw [callWritten_inBuf]
  exact writeBytes_wf hwf (by rw [List.length_take, Space.size]; omega)

theorem read_callWritten {k : Nat} (hk : k < bytes.length) (hk' : k < 213) :
    (callWritten s bytes gas).inBuf.read .inBuf k = bytes[k]? := by
  rw [callWritten_inBuf, read_writeBytes _ _ _ _ (wf_rising hwf), if_pos (by rw [List.length_take]; omega), Nat.sub_zero,
    List.getElem?_take_of_lt hk']

theorem bootReady_callWritten (hlen : bytes.length < 2 ^ 64) : BootReady (callWritten s bytes gas) where
  length_written := rfl
  budget_written := rfl
  frame_written h k hk := by
    have h213 : bytes.length = 213 := (ofNat_length_eq_213 hlen).1 h
    have hk : k < 213 := hk
    rw [read_callWritten hwf gas (by omega) hk, List.getElem?_eq_getElem (by omega)]
    rfl

/-- After `CALL`'s writes the decoder answers as on the operand's bytes. -/
theorem run_callWritten (hlen : bytes.length < 2 ^ 64) :
    Machine.run (BitVec.ofNat 64 bytes.length) ((callWritten s bytes gas).inBuf.read .inBuf) gas =
      Machine.run (BitVec.ofNat 64 bytes.length) (fun k => bytes[k]?) gas := by
  have same : decodeFrame (BitVec.ofNat 64 bytes.length) ((callWritten s bytes gas).inBuf.read .inBuf) =
      decodeFrame (BitVec.ofNat 64 bytes.length) fun k => bytes[k]? := by
    by_cases h : bytes.length = 213
    · exact decodeFrame_congr _ _ _ fun k hk => read_callWritten hwf gas (by omega) hk
    · have other := mt (ofNat_length_eq_213 hlen).1 h
      rw [decodeFrame_of_other_length other, decodeFrame_of_other_length other]
  simp only [Machine.run, same]

end Inputs

/-- Settles O60: `CALL`'s writes, then START and `WAIT`. -/
theorem callComputesRun : Obligations.CallComputesRun := by
  intro s frame bytes gas hturns hctl hwf hbytes hlen
  have hidle : s.ctl.busy = false := by rcases hctl with h | h <;> rw [h] <;> rfl
  obtain ⟨toWritten, written⟩ := leadsTo_callWritten hturns hidle bytes gas
  obtain ⟨t, toDone, hdone, hpc, hrun⟩ := written.start_wait rfl (callWritten_wf hwf gas) (bootReady_callWritten hwf gas hlen)
  obtain ⟨n, hn⟩ := toWritten.trans toDone
  refine ⟨callOps bytes gas, assemble_call gas hbytes, n, t, hn, hdone, ?_, ?_⟩
  · rw [hpc, callWritten_pc_add_two]
  · rwa [callWritten_inLen, callWritten_gasBudget, run_callWritten hwf gas hlen] at hrun

end Sys2Proof.Proofs
end

section
/-! SUPPORT. The input decoder's answers: a legal frame is rebuilt from its decoded fields, the two rejections, and the DECODE
step (40_decoder.md R66, R67, R70, R72). -/

namespace Sys2Proof.Proofs

open Sys2Proof.Machine Sys2Proof.Laws

/-! ## Fields written back to the bytes they were read from (30_encoding.md R50, 40_decoder.md R72) -/

section Fields

variable (byte : Nat → Byte) (o : Nat)

/-- `BE32bytes` is the four bytes of a word, the most significant first (30_encoding.md R60). -/
theorem be32Bytes_eq_map (x : Word32) : be32Bytes x = (List.range 4).map fun k => x.extractLsb' (24 - 8 * k) 8 := by
  simp [be32Bytes, List.range_succ, BitVec.extractLsb', Nat.shiftRight_eq_div_pow]

theorem be32Bytes_be32 : be32Bytes (be32 byte o) = (List.range' o 4).map byte := by
  rw [be32Bytes_eq_map, List.range'_eq_map_range, List.map_map]
  exact List.map_congr_left fun k hk => extract_be32 byte o k (List.mem_range.1 hk)

theorem le64Bytes_le64 : le64Bytes (le64 byte o) = (List.range' o 8).map byte := by
  have bytes : le64Bytes (le64 byte o) = (List.range 8).map (wordByte (le64 byte o)) := rfl
  rw [bytes, List.range'_eq_map_range, List.map_map]
  exact List.map_congr_left fun k hk => (wordByte_eq_extract _ k).trans (extract_le64 byte o k (List.mem_range.1 hk))

theorem vectorBytes_wordsAt (n : Nat) :
    (wordsAt byte o n).toList.flatMap le64Bytes = (List.range' o (8 * n)).map byte := by
  induction n with
  | zero => rfl
  | succ n ih =>
    have last : (wordsAt byte o (n + 1)).toList = (wordsAt byte o n).toList ++ [le64 byte (o + 8 * n)] := by
      rw [wordsAt, Vector.toList_ofFn, List.ofFn_succ_last, wordsAt, Vector.toList_ofFn]
      rfl
    rw [last, List.flatMap_append, ih, List.flatMap_singleton, le64Bytes_le64, ← List.map_append, List.range'_append_1,
      Nat.mul_succ]

theorem map_range_append (k n : Nat) :
    (List.range k).map byte ++ (List.range' k n).map byte = (List.range (k + n)).map byte := by
  rw [← List.map_append, List.range_eq_range', List.range_eq_range', ← List.range'_append_1, Nat.zero_add]

/-- The fields cover every offset of the frame once, so writing them out gives the 213 bytes back. -/
theorem encode_frameFields : encode (frameFields byte (byte 212)) = .frame 213#64 ((List.range 213).map byte) := by
  have flag : [byte 212] = (List.range' 212 1).map byte := rfl
  rw [frameFields, encode, frameBytes, be32Bytes_be32, vectorBytes_wordsAt, vectorBytes_wordsAt, vectorBytes_wordsAt, flag,
    ← List.range_eq_range', map_range_append, map_range_append, map_range_append, map_range_append]

end Fields

/-- A frame is the list of what its offsets hold. -/
theorem map_range_getD (bytes : List Byte) :
    (List.range bytes.length).map (fun k => (bytes[k]?).getD 0#8) = bytes := by
  apply List.ext_getElem (by simp)
  intro k _ hk
  simp [hk]

/-! ## The flag byte (30_encoding.md R53, 40_decoder.md R67) -/

theorem decodeFrame_of_illegal_flag {byte? : Nat → Option Byte} {f : Byte} (hbyte : byte? 212 = some f)
    (hf : legalFlag f = false) : decodeFrame 213#64 byte? = .error .flagNotBool := by
  simp only [decodeFrame, hbyte, hf, ne_eq, not_true_eq_false, if_false, Bool.false_eq_true]

/-- Of a legal flag byte, bit 0 says which of the two values it is. -/
theorem getLsbD_of_legalFlag {f : Byte} (hf : legalFlag f = true) : f.getLsbD 0 = decide (f = 0x01#8) := by
  rcases (legalFlag_iff f).1 hf with rfl | rfl <;> rfl

/-! ## The DECODE step (40_decoder.md R70) -/

theorem exec_blake2f_of_decode (n : Word32) (h : Vector Word 8) (m : Vector Word 16) (t : Vector Word 2) (f : Byte) {s : State}
    (hctl : s.ctl = .decode) : exec (.blake2f n h m t f) s = .next (decodeStep n h m t f s) := by
  simp only [exec, execBlake2f, hctl]

/-! ## The statements -/

/-- Settles O2: a command word is its operand and a set bit 0; a frame is its fields, which cover all its bytes, and the
legal length. -/
theorem encodeAfterDecode : Obligations.EncodeAfterDecode := by
  constructor
  · intro w i hdec
    obtain ⟨hbit, rfl⟩ := decodeCommand_start hdec
    exact encode_start_of_bit_set hbit
  · intro len bytes i hlength hdec
    obtain ⟨rfl, _, _, _, _, f, _, hflag, _, _, rfl⟩ := decodeFrame_blake2f hdec
    have hf : (bytes[212]?).getD 0#8 = f := by rw [hflag, Option.getD_some]
    rw [← hf, encode_frameFields fun k => (bytes[k]?).getD 0#8, ← hlength, map_range_getD]

/-- Settles O4: the length is tested before any byte is read. -/
theorem wrongLengthReadsNoByte : Obligations.WrongLengthReadsNoByte := fun _ _ hlen =>
  decodeFrame_of_other_length hlen

/-- Settles O5: 0x00 and 0x01 are the only legal flag bytes, and the flag is tested before the other bytes are read. -/
theorem flagByteAloneDecides : Obligations.FlagByteAloneDecides := by
  intro byte? b hbyte h0 h1
  have illegal : legalFlag b = false := by
    rw [Bool.eq_false_iff, Ne, legalFlag_iff]
    exact not_or.2 ⟨h0, h1⟩
  exact decodeFrame_of_illegal_flag hbyte illegal

/-- Settles O23: the DECODE step keeps bit 0 of the flag byte, which for a legal one is whether it is 0x01. -/
theorem decodeStepFillsTheCall : Obligations.DecodeStepFillsTheCall := by
  intro n h m t f s hctl hwf
  rw [exec_blake2f_of_decode n h m t f hctl, decodeStep, getLsbD_of_legalFlag hwf]

end Sys2Proof.Proofs
end

section
/-! SUPPORT. The word operations: rotations bit by bit, and rotations and the addition on 32-bit halves (41_compression.md R75,
R95). -/

namespace Sys2Proof.Proofs

open Sys2Proof.Machine Sys2Proof.Laws

/-! ## Rotation (41_compression.md R75) -/

/-- Settles O10: the low bits come from the right shift, the others from the left shift. -/
theorem rotationMovesBits : Obligations.RotationMovesBits := by
  intro x n k hn hn' hk
  rw [rotr64, BitVec.getLsbD_or, BitVec.getLsbD_ushiftRight, BitVec.getLsbD_shiftLeft]
  by_cases h : k + n < 64
  · have low : k < 64 - n := by omega
    simp [low, Nat.mod_eq_of_lt h, Nat.add_comm n]
  · have high : ¬ k < 64 - n := by omega
    have wrapped : (k + n) % 64 = k - (64 - n) := by omega
    rw [wrapped, BitVec.getLsbD_of_ge x (n + k) (by omega)]
    simp [hk, high]

/-- Two rotations in a row are one by the sum. -/
theorem rotr64_rotr64 (x : Word) {n k : Nat} (hn : 0 < n) (hk : 0 < k) (h : n + k < 64) :
    rotr64 (rotr64 x n) k = rotr64 x (n + k) := by
  apply BitVec.eq_of_getLsbD_eq
  intro j hj
  rw [rotationMovesBits _ k j hk (by omega) hj, rotationMovesBits _ n _ hn (by omega) (Nat.mod_lt _ (by decide)),
    rotationMovesBits _ (n + k) j (by omega) h hj]
  congr 1
  omega

/-! ## Words as halves (41_compression.md R95) -/

theorem ofHalves_toHalves (x : Word) : ofHalves (toHalves x) = x :=
  BitVec.extractLsb'_append_extractLsb'_eq_extractLsb' (by decide) |>.trans BitVec.extractLsb'_eq_self

theorem getLsbD_ofHalves (x : Halves) (k : Nat) :
    (ofHalves x).getLsbD k = if k < 32 then x.lo.getLsbD k else x.hi.getLsbD (k - 32) := by
  rw [ofHalves, BitVec.getLsbD_append]

/-- Bit `k` of a half into which the other half `b` is shifted from above. -/
theorem getLsbD_shiftIn (a b : Word32) {n k : Nat} (hn : n < 32) (hk : k < 32) :
    (a >>> n ||| b <<< (32 - n)).getLsbD k = if k + n < 32 then a.getLsbD (k + n) else b.getLsbD (k + n - 32) := by
  rw [BitVec.getLsbD_or, BitVec.getLsbD_ushiftRight, BitVec.getLsbD_shiftLeft]
  by_cases h : k + n < 32
  · have low : k < 32 - n := by omega
    simp [h, low, Nat.add_comm n]
  · have high : ¬ k < 32 - n := by omega
    have index : k - (32 - n) = k + n - 32 := by omega
    rw [BitVec.getLsbD_of_ge a (n + k) (by omega), index]
    simp [h, hk, high]

/-- The halves rotated by less than a half. -/
def shiftHalves (x : Halves) (n : Nat) : Halves :=
  ⟨x.hi >>> n ||| x.lo <<< (32 - n), x.lo >>> n ||| x.hi <<< (32 - n)⟩

theorem ofHalves_shiftHalves (x : Halves) {n : Nat} (hn : 0 < n) (hn' : n < 32) :
    ofHalves (shiftHalves x n) = rotr64 (ofHalves x) n := by
  apply BitVec.eq_of_getLsbD_eq
  intro k hk
  rw [rotationMovesBits _ n k hn (by omega) hk, getLsbD_ofHalves, getLsbD_ofHalves]
  by_cases low : k < 32
  · rw [if_pos low, shiftHalves, getLsbD_shiftIn _ _ hn' low, Nat.mod_eq_of_lt (by omega)]
  · rw [if_neg low, shiftHalves, getLsbD_shiftIn _ _ hn' (by omega)]
    by_cases inside : k + n < 64
    · rw [Nat.mod_eq_of_lt inside, if_pos (by omega), if_neg (by omega)]
      congr 1
      omega
    · rw [if_neg (by omega), if_pos (by omega)]
      congr 1
      omega

theorem ofHalves_halvesRotr32 (x : Halves) : ofHalves (halvesRotr32 x) = rotr64 (ofHalves x) 32 := by
  apply BitVec.eq_of_getLsbD_eq
  intro k hk
  rw [rotationMovesBits _ 32 k (by decide) (by decide) hk, getLsbD_ofHalves, getLsbD_ofHalves]
  by_cases low : k < 32
  · rw [if_pos low, if_neg (by omega), halvesRotr32]
    congr 1
    omega
  · rw [if_neg low, if_pos (by omega), halvesRotr32]
    congr 1
    omega

/-- A rotation by 63 is the exchange of the halves and a rotation by 31. -/
theorem halvesRotr63_eq (x : Halves) : halvesRotr63 x = shiftHalves (halvesRotr32 x) 31 := by
  rw [halvesRotr63, shiftHalves, BitVec.or_comm, BitVec.or_comm (x.lo <<< 1)]
  rfl

theorem ofHalves_toNat (x : Halves) : (ofHalves x).toNat = x.hi.toNat * 2 ^ 32 + x.lo.toNat := by
  rw [ofHalves, BitVec.toNat_append, Nat.shiftLeft_eq, Nat.mul_comm, ← Nat.two_pow_add_eq_or_of_lt x.lo.isLt]

theorem ofHalves_halvesAdd (x y : Halves) : ofHalves (halvesAdd x y) = ofHalves x + ofHalves y := by
  apply BitVec.eq_of_toNat_eq
  rw [BitVec.toNat_add, ofHalves_toNat, ofHalves_toNat, ofHalves_toNat]
  simp only [halvesAdd, BitVec.toNat_ofNat, Nat.reducePow]
  omega

/-- Settles O19: each form on halves against the operation on the joined word. -/
theorem halvesEqualWholeWords : Obligations.HalvesEqualWholeWords := by
  intro x y
  have joined := ofHalves_toHalves x
  refine ⟨joined, ?_, ?_, ?_, ?_, ?_⟩
  · rw [ofHalves_halvesRotr32, joined]
  · exact (ofHalves_shiftHalves (n := 24) _ (by decide) (by decide)).trans (by rw [joined])
  · exact (ofHalves_shiftHalves (n := 16) _ (by decide) (by decide)).trans (by rw [joined])
  · rw [halvesRotr63_eq, ofHalves_shiftHalves _ (by decide) (by decide), ofHalves_halvesRotr32, joined,
      rotr64_rotr64 x (by decide) (by decide) (by decide)]
  · rw [ofHalves_halvesAdd, joined, ofHalves_toHalves]

end Sys2Proof.Proofs
end

section
/-! SUPPORT. `G` word by word, and from it the order of a round's applications; the message schedule; the seed and the output
(41_compression.md R78 to R88, R90). -/

namespace Sys2Proof.Proofs

open Sys2Proof.Machine Sys2Proof.Laws

/-! ## The mixing function (41_compression.md R79, R80) -/

/-- Settles O11: each assignment writes one of the four words and reads what the earlier ones wrote. -/
theorem mixFollowsItsEightSteps : Obligations.MixFollowsItsEightSteps := by
  intro v a b c d x y hdistinct
  simp only [List.nodup_cons, List.mem_cons, List.not_mem_nil, or_false, not_or, ← ne_eq] at hdistinct
  obtain ⟨⟨hab, hac, had⟩, ⟨hbc, hbd⟩, hcd, -⟩ := hdistinct
  refine ⟨?_, ?_, ?_, ?_, fun j hj => ?_⟩
  case refine_5 =>
    simp only [List.mem_cons, List.not_mem_nil, or_false, not_or, ← ne_eq] at hj
    obtain ⟨ha, hb, hc, hd⟩ := hj
    simp only [mixG, getElem_set_other, ha.symm, hb.symm, hc.symm, hd.symm, ne_eq, not_false_eq_true]
  all_goals
    simp only [mixG, getElem_set_same, getElem_set_other, hab, hac, had, hbc, hbd, hcd, hab.symm, hac.symm, had.symm,
      hbc.symm, hbd.symm, hcd.symm, ne_eq, not_false_eq_true]

theorem mixG_other (v : Vector Word 16) {a b c d : Fin 16} (x y : Word) (h : [a, b, c, d].Nodup) {j : Fin 16}
    (hj : j ∉ [a, b, c, d]) : (mixG v a b c d x y)[j] = v[j] := by
  obtain ⟨-, -, -, -, others⟩ := mixFollowsItsEightSteps v a b c d x y h
  exact others j hj

/-- What `G` leaves in its four words depends on those words alone. -/
theorem mixG_local {v w : Vector Word 16} {a b c d : Fin 16} (x y : Word) (h : [a, b, c, d].Nodup)
    (hvw : ∀ i ∈ [a, b, c, d], v[i] = w[i]) {j : Fin 16} (hj : j ∈ [a, b, c, d]) :
    (mixG v a b c d x y)[j] = (mixG w a b c d x y)[j] := by
  obtain ⟨va, vb, vc, vd, -⟩ := mixFollowsItsEightSteps v a b c d x y h
  obtain ⟨wa, wb, wc, wd, -⟩ := mixFollowsItsEightSteps w a b c d x y h
  simp only [List.forall_mem_cons] at hvw
  obtain ⟨ha, hb, hc, hd, -⟩ := hvw
  rw [ha, hb, hc, hd] at va vb vc vd
  simp only [List.mem_cons, List.not_mem_nil, or_false] at hj
  rcases hj with rfl | rfl | rfl | rfl
  · exact va.trans wa.symm
  · exact vb.trans wb.symm
  · exact vc.trans wc.symm
  · exact vd.trans wd.symm

/-- On disjoint index sets `G` commutes with itself (41_compression.md R90). -/
theorem mixG_comm (v : Vector Word 16) {a b c d a' b' c' d' : Fin 16} (x y x' y' : Word)
    (h : ([a, b, c, d] ++ [a', b', c', d']).Nodup) :
    mixG (mixG v a b c d x y) a' b' c' d' x' y' = mixG (mixG v a' b' c' d' x' y') a b c d x y := by
  obtain ⟨left, right, disjoint⟩ := List.nodup_append'.1 h
  have first : ∀ i ∈ [a, b, c, d], (mixG v a' b' c' d' x' y')[i] = v[i] := fun i hi =>
    mixG_other v x' y' right (disjoint hi)
  have second : ∀ i ∈ [a', b', c', d'], (mixG v a b c d x y)[i] = v[i] := fun i hi =>
    mixG_other v x y left (disjoint.symm hi)
  suffices words : ∀ j : Fin 16, (mixG (mixG v a b c d x y) a' b' c' d' x' y')[j] =
      (mixG (mixG v a' b' c' d' x' y') a b c d x y)[j] from Vector.ext fun k hk => words ⟨k, hk⟩
  intro j
  by_cases hj : j ∈ [a, b, c, d]
  · rw [mixG_other _ x' y' right (disjoint hj), mixG_local x y left first hj]
  · rw [mixG_other _ x y left hj]
    by_cases hj' : j ∈ [a', b', c', d']
    · rw [mixG_local x' y' right second hj']
    · rw [mixG_other _ x' y' right hj', mixG_other _ x y left hj, mixG_other _ x' y' right hj']

/-! ## A round (41_compression.md R81, R82) -/

/-- Settles O12: the pseudocode's eight lines are the rows of the table, in order. -/
theorem roundFollowsTheTable : Obligations.RoundFollowsTheTable := fun _ _ _ => rfl

/-- The four work-vector words of application `j` (41_compression.md R81). -/
def quadIndices (j : Fin 8) : List (Fin 16) := [quads[j].a, quads[j].b, quads[j].c, quads[j].d]

theorem applyG_comm (m : Vector Word 16) (r : Word32) {i j : Fin 8} (h : (quadIndices i ++ quadIndices j).Nodup)
    (v : Vector Word 16) : applyG m r (applyG m r v i) j = applyG m r (applyG m r v j) i :=
  mixG_comm v _ _ _ _ h

/-- The columns' index sets are pairwise disjoint. -/
theorem columns_disjoint : ∀ i ∈ ([0, 1, 2, 3] : List (Fin 8)), ∀ j ∈ ([0, 1, 2, 3] : List (Fin 8)), i ≠ j →
    (quadIndices i ++ quadIndices j).Nodup := by decide

/-- The diagonals' index sets are pairwise disjoint. -/
theorem diagonals_disjoint : ∀ i ∈ ([4, 5, 6, 7] : List (Fin 8)), ∀ j ∈ ([4, 5, 6, 7] : List (Fin 8)), i ≠ j →
    (quadIndices i ++ quadIndices j).Nodup := by decide

/-- Applications on pairwise disjoint index sets may run in any order. -/
theorem foldl_applyG_perm (m : Vector Word 16) (r : Word32) {l l' : List (Fin 8)} (hperm : l'.Perm l)
    (hdisjoint : ∀ i ∈ l, ∀ j ∈ l, i ≠ j → (quadIndices i ++ quadIndices j).Nodup) (v : Vector Word 16) :
    l'.foldl (applyG m r) v = l.foldl (applyG m r) v := by
  refine (hperm.symm.foldl_eq' (fun i hi j hj w => ?_) v).symm
  by_cases hij : i = j
  · rw [hij]
  · exact applyG_comm m r (hdisjoint i hi j hj hij) w

/-- Settles O13: each half on its own, the table's order being its columns and then its diagonals. -/
theorem halfRoundsRunInAnyOrder : Obligations.HalfRoundsRunInAnyOrder := by
  intro v m r columns diagonals hcolumns hdiagonals
  have table : ([0, 1, 2, 3, 4, 5, 6, 7] : List (Fin 8)) = [0, 1, 2, 3] ++ [4, 5, 6, 7] := rfl
  rw [roundFollowsTheTable v m r, table, List.foldl_append, foldl_applyG_perm m r hcolumns columns_disjoint,
    foldl_applyG_perm m r hdiagonals diagonals_disjoint]

/-! ## The message schedule (41_compression.md R78, R86, R88) -/

theorem sigmaRow_add_ten {r : Word32} (h : r.toNat + 10 < 2 ^ 32) : sigmaRow (r + 10) = sigmaRow r := by
  have index : (r + 10).toNat % 10 = r.toNat % 10 := by bv_omega
  simp only [sigmaRow, index]

/-- Settles O14: the round index is used for its row of `SIGMA` only. -/
theorem scheduleRepeatsEveryTenRounds : Obligations.ScheduleRepeatsEveryTenRounds := by
  intro v m r h
  simp only [Machine.round, sigmaRow_add_ten h]

/-- Every row of `SIGMA` is a permutation of the message word numbers (41_compression.md R78). -/
theorem sigma_row_perm : ∀ k : Fin 10,
    ((List.finRange 8).flatMap fun j => [sigma[k][2 * j.val], sigma[k][2 * j.val + 1]]).Perm (List.finRange 16) := by
  decide

/-- Settles O15: the table's rows are read at `2j` and `2j + 1`, and every row of `SIGMA` is a permutation. -/
theorem roundReadsEachMessageWordOnce : Obligations.RoundReadsEachMessageWordOnce := fun r =>
  ⟨fun v m => roundFollowsTheTable v m r, fun _ _ _ => rfl, sigma_row_perm ⟨r.toNat % 10, Nat.mod_lt _ (by decide)⟩⟩

/-! ## The seed and the output (41_compression.md R83, R84, R87) -/

/-- Settles O16: the seed's closed form at each of its sixteen words. -/
theorem seedWordByWord : Obligations.SeedWordByWord := by
  intro h t final
  refine ⟨fun i => ?_, fun i => ?_, getElem_initVector h t final 12 (by decide), getElem_initVector h t final 13 (by decide),
    (getElem_initVector h t final 14 (by decide)).trans (by cases final <;> rfl), getElem_initVector h t final 15 (by decide)⟩
  · rw [getElem_initVector, dif_pos i.isLt]
    rfl
  · rw [getElem_initVector, dif_neg (by omega), if_neg (by omega), if_neg (by omega), if_neg (by omega)]
    congr 1
    omega

/-- Settles O17: byte `8i + k` of the serialised words is byte `k` of word `i`. -/
theorem outputByteLayout : Obligations.OutputByteLayout := by
  intro h v
  refine ⟨length_serialise _, fun i k hk => ?_⟩
  rw [serialise, flatMap_bytes_getElem? _ _ _ hk]
  simp [Machine.fold, wordByte_eq_extract]

/-- Without rounds, `fold` cancels `h` and leaves the seed's upper half (41_compression.md R87). -/
theorem getElem_compress_zero (h : Vector Word 8) (m : Vector Word 16) (t : Vector Word 2) (final : Bool) (i : Fin 8) :
    (compress h m t final 0)[i] = (initVector h t final)[i.val + 8] := by
  obtain ⟨lower, -⟩ := seedWordByWord h t final
  have cancel : (compress h m t final 0)[i] = h[i] ^^^ (initVector h t final)[i.val] ^^^ (initVector h t final)[i.val + 8] := by
    simp [compress, Machine.fold, runRounds]
  rw [cancel, lower, BitVec.xor_self, BitVec.zero_xor]

/-- Settles O18: the upper half of the seed, word by word. -/
theorem zeroRoundsGiveTheAdjustedSeed : Obligations.ZeroRoundsGiveTheAdjustedSeed := by
  intro h m t final
  obtain ⟨-, constants, s12, s13, s14, s15⟩ := seedWordByWord h t final
  apply Vector.ext
  intro k hk
  refine (getElem_compress_zero h m t final ⟨k, hk⟩).trans ?_
  match k with
  | 0 => exact constants 0
  | 1 => exact constants 1
  | 2 => exact constants 2
  | 3 => exact constants 3
  | 4 => exact s12
  | 5 => exact s13
  | 6 => exact s14
  | 7 => exact s15

end Sys2Proof.Proofs
end

section
/-! SUPPORT. Noninterference: two operations on the same latches go through DECODE to DONE side by side, whatever else their
states hold (41_compression.md R89, 10_state.md R28). -/

namespace Sys2Proof.Proofs

open Sys2Proof.Machine Sys2Proof.Laws

/-! ## Two operations side by side -/

/-- The latches of the two states hold the same, the frame as it is read. -/
structure SameLatches (s₁ s₂ : State) : Prop where
  length : s₁.lLen = s₂.lLen
  length_value : s₁.lLenHasValue = s₂.lLenHasValue
  budget : s₁.lGas = s₂.lGas
  budget_value : s₁.lGasHasValue = s₂.lGasHasValue
  frame : s₁.lBuf.read .lBuf = s₂.lBuf.read .lBuf

/-- The decoded-call registers of the two states hold the same (10_state.md R20). -/
structure SameCall (s₁ s₂ : State) : Prop where
  rounds : s₁.rounds = s₂.rounds
  state : s₁.h = s₂.h
  message : s₁.m = s₂.m
  counter : s₁.t = s₂.t
  final : s₁.f = s₂.f

/-- The two operations have come equally far: each register that a later step reads, or that a host sees in DONE, is asked to
agree from the step on that writes it. -/
structure SameProgress (s₁ s₂ : State) : Prop where
  ctl : s₁.ctl = s₂.ctl
  output : s₁.outBuf = s₂.outBuf
  gas : s₁.gasUsed = s₂.gasUsed
  call : s₁.ctl = .gascheck ∨ s₁.ctl = .init ∨ s₁.ctl = .round ∨ s₁.ctl = .final → SameCall s₁ s₂
  work : s₁.ctl = .round ∨ s₁.ctl = .final → s₁.v = s₂.v ∧ s₁.rc = s₂.rc
  code : s₁.ctl = .done → s₁.status = s₂.status

theorem SameLatches.decodeLatched {s₁ s₂ : State} (h : SameLatches s₁ s₂) : s₁.decodeLatched = s₂.decodeLatched := by
  rw [State.decodeLatched, State.decodeLatched, h.length, h.frame]

theorem SameProgress.result {s₁ s₂ : State} (h : SameProgress s₁ s₂) (hdone : s₁.ctl = .done) : s₁.result = s₂.result := by
  have bytes : s₁.outBytes = s₂.outBytes := by
    unfold State.outBytes State.outByte
    rw [h.output]
  rw [State.result, State.result, h.code hdone, h.gas, bytes]

theorem SameCall.pop {s₁ s₂ : State} (h : SameCall s₁ s₂) : SameCall s₁.pop s₂.pop := { h with }

theorem SameProgress.pop {s₁ s₂ : State} (h : SameProgress s₁ s₂) : SameProgress s₁.pop s₂.pop :=
  { h with call := fun hctl => (h.call hctl).pop }

/-! ## The controller's steps keep the two together -/

section Progress

variable {s₁ s₂ : State} (h : SameProgress s₁ s₂)

include h

theorem SameProgress.decodeStep (n : Word32) (hh : Vector Word 8) (m : Vector Word 16) (t : Vector Word 2) (f : Byte) :
    SameProgress (decodeStep n hh m t f s₁) (decodeStep n hh m t f s₂) where
  ctl := rfl
  output := h.output
  gas := h.gas
  call _ := ⟨rfl, rfl, rfl, rfl, rfl⟩
  work := by simp
  code := by simp

theorem SameProgress.raise (e : OpError) : SameProgress (raise e s₁) (raise e s₂) where
  ctl := rfl
  output := h.output
  gas := h.gas
  call := by simp
  work := by simp
  code _ := rfl

theorem SameProgress.passed (call : SameCall s₁ s₂) : SameProgress { s₁ with ctl := .init } { s₂ with ctl := .init } where
  ctl := rfl
  output := h.output
  gas := h.gas
  call _ := ⟨call.rounds, call.state, call.message, call.counter, call.final⟩
  work := by simp
  code := by simp

theorem SameProgress.initStep (call : SameCall s₁ s₂) : SameProgress (initStep s₁) (initStep s₂) where
  ctl := by simp [call.rounds]
  output := by simp [h.output]
  gas := by simp [h.gas]
  call _ := by constructor <;> simp [call.rounds, call.state, call.message, call.counter, call.final]
  work _ := by simp [call.state, call.counter, call.final]
  code hctl := absurd hctl (by rw [initStep_ctl]; split <;> simp)

theorem SameProgress.roundStep (call : SameCall s₁ s₂) (work : s₁.v = s₂.v ∧ s₁.rc = s₂.rc) :
    SameProgress (roundStep s₁) (roundStep s₂) := by
  obtain ⟨vector, count⟩ := work
  exact {
    ctl := by simp [call.rounds, count]
    output := by simp [h.output]
    gas := by simp [h.gas]
    call := fun _ => by constructor <;> simp [call.rounds, call.state, call.message, call.counter, call.final]
    work := fun _ => by simp [call.message, vector, count]
    code := fun hctl => absurd hctl (by rw [roundStep_ctl]; split <;> simp) }

theorem SameProgress.finalStep (call : SameCall s₁ s₂) (work : s₁.v = s₂.v ∧ s₁.rc = s₂.rc) :
    SameProgress (finalStep s₁) (finalStep s₂) := by
  obtain ⟨vector, -⟩ := work
  exact {
    ctl := by simp
    output := by simp [h.output, call.state, vector]
    gas := by simp [call.rounds]
    call := by simp
    work := by simp
    code := by simp }

end Progress

/-! ## The controller's step, state by state (42_controller.md R102 to R107) -/

theorem gasCheckStep_of_lt {s : State} (hgas : s.lGasHasValue = true) (hlt : s.lGas < gasCost s.rounds) :
    gasCheckStep s = .next (raise .outOfGas s) := by
  rw [gasCheckStep, if_pos hgas, if_pos hlt]

theorem gasCheckStep_of_not_lt {s : State} (hgas : s.lGasHasValue = true) (hge : ¬ s.lGas < gasCost s.rounds) :
    gasCheckStep s = .next { s with ctl := .init } := by
  rw [gasCheckStep, if_pos hgas, if_neg hge]

section Controller

variable {s : State} (turn : s.nextTurn = .controller)

include turn

/-- Past DECODE the step is the one of `CTL`, on the decoded-call registers. -/
theorem step_of_call (hctl : s.ctl = .gascheck ∨ s.ctl = .init ∨ s.ctl = .round ∨ s.ctl = .final) :
    step s = execBlake2f s.rounds s.h s.m s.t (flagByte s.f) s.pop := by
  obtain ⟨-, continues, -⟩ := stepRunsTheDecodedInstruction
  exact continues s turn hctl

theorem step_gascheck (hctl : s.ctl = .gascheck) : step s = gasCheckStep s.pop := by
  rw [step_of_call turn (by simp [hctl])]
  simp only [execBlake2f, pop_ctl, hctl]

theorem step_init (hctl : s.ctl = .init) : step s = .next (initStep s.pop) := by
  rw [step_of_call turn (by simp [hctl])]
  simp only [execBlake2f, pop_ctl, hctl]

theorem step_round (hctl : s.ctl = .round) : step s = .next (roundStep s.pop) := by
  rw [step_of_call turn (by simp [hctl])]
  simp only [execBlake2f, pop_ctl, hctl]

theorem step_final (hctl : s.ctl = .final) : step s = .next (finalStep s.pop) := by
  rw [step_of_call turn (by simp [hctl])]
  simp only [execBlake2f, pop_ctl, hctl]

end Controller

/-! ## The two runs -/

/-- Where the one operation steps, the other does, and the two have again come equally far. -/
theorem SameProgress.step {s₁ s₂ t₁ : State} (progress : SameProgress s₁ s₂) (latches : SameLatches s₁ s₂)
    (turn₁ : s₁.nextTurn = .controller) (turn₂ : s₂.nextTurn = .controller) (hbusy : s₁.ctl.busy = true)
    (h : step s₁ = .next t₁) : ∃ t₂, step s₂ = .next t₂ ∧ SameProgress t₁ t₂ := by
  have ctl₂ := progress.ctl.symm
  have hdec₂ := latches.decodeLatched.symm
  have hlen₂ := latches.length_value.symm
  have hgas₂ := latches.budget_value.symm
  cases step_cases h with
  | reset other | start other | host other | access other => exact absurd (other.symm.trans turn₁) (by decide)
  | waits _ hctl => exact absurd (hctl.symm.trans hbusy) (by decide)
  | decode n hh m t f _ hctl hlen hdec =>
    obtain ⟨decodes, -, -⟩ := stepRunsTheDecodedInstruction
    refine ⟨_, ?_, progress.pop.decodeStep n hh m t f⟩
    rw [decodes s₂ _ turn₂ (ctl₂.trans hctl) (hlen₂.trans hlen) (hdec₂.trans hdec)]
    exact exec_blake2f_of_decode n hh m t f (ctl₂.trans hctl)
  | illegal e _ hctl hlen hdec he =>
    exact ⟨_, step_of_rejected turn₂ (ctl₂.trans hctl) (hlen₂.trans hlen) (hdec₂.trans hdec) he,
      progress.pop.raise .outOfRange⟩
  | tooDear _ hctl hgas hlt =>
    rw [latches.budget, (progress.call (.inl hctl)).rounds] at hlt
    exact ⟨_, (step_gascheck turn₂ (ctl₂.trans hctl)).trans (gasCheckStep_of_lt (s := s₂.pop) (hgas₂.trans hgas) hlt),
      progress.pop.raise .outOfGas⟩
  | passed _ hctl hgas hge =>
    have call := progress.call (.inl hctl)
    rw [latches.budget, call.rounds] at hge
    exact ⟨_, (step_gascheck turn₂ (ctl₂.trans hctl)).trans (gasCheckStep_of_not_lt (s := s₂.pop) (hgas₂.trans hgas) hge),
      progress.pop.passed call.pop⟩
  | init _ hctl =>
    exact ⟨_, step_init turn₂ (ctl₂.trans hctl), progress.pop.initStep (progress.call (by simp [hctl])).pop⟩
  | round _ hctl =>
    exact ⟨_, step_round turn₂ (ctl₂.trans hctl),
      progress.pop.roundStep (progress.call (by simp [hctl])).pop (progress.work (.inl hctl))⟩
  | final _ hctl =>
    exact ⟨_, step_final turn₂ (ctl₂.trans hctl),
      progress.pop.finalStep (progress.call (by simp [hctl])).pop (progress.work (.inr hctl))⟩

/-- Two operations on the same latches that have come equally far, with no schedule left (log 2). -/
structure SideBySide (s₁ s₂ : State) : Prop where
  schedule₁ : s₁.turns = []
  schedule₂ : s₂.turns = []
  started : s₁.ctl ≠ .idle
  latches : SameLatches s₁ s₂
  progress : SameProgress s₁ s₂

theorem turn_of_busy {s : State} (hturns : s.turns = []) (hbusy : s.ctl.busy = true) : s.nextTurn = .controller := by
  rw [nextTurn_nil hturns, hbusy, if_pos rfl]

theorem busy_of_started {c : Ctl} (hidle : c ≠ .idle) (hdone : c ≠ .done) : c.busy = true := by
  cases c with
  | idle => exact absurd rfl hidle
  | done => exact absurd rfl hdone
  | _ => rfl

theorem SideBySide.step {s₁ s₂ t₁ : State} (hs : SideBySide s₁ s₂) (hdone : s₁.ctl ≠ .done) (h₁ : step s₁ = .next t₁) :
    ∃ t₂, step s₂ = .next t₂ ∧ SideBySide t₁ t₂ := by
  obtain ⟨schedule₁, schedule₂, started, latches, progress⟩ := hs
  have hbusy := busy_of_started started hdone
  have turn₁ := turn_of_busy schedule₁ hbusy
  have turn₂ := turn_of_busy schedule₂ (progress.ctl ▸ hbusy)
  obtain ⟨t₂, h₂, progress'⟩ := progress.step latches turn₁ turn₂ hbusy h₁
  obtain ⟨len₁, lenv₁, buf₁, gas₁, gasv₁, -, turns₁⟩ := controllerStep_frame turn₁ h₁
  obtain ⟨len₂, lenv₂, buf₂, gas₂, gasv₂, -, turns₂⟩ := controllerStep_frame turn₂ h₂
  obtain ⟨length, length_value, budget, budget_value, frame⟩ := latches
  exact ⟨t₂, h₂, {
    schedule₁ := by rw [turns₁, schedule₁, List.tail_nil]
    schedule₂ := by rw [turns₂, schedule₂, List.tail_nil]
    started := ctl_ne_idle_of_step turn₁ started h₁
    latches := ⟨by rw [len₁, len₂, length], by rw [lenv₁, lenv₂, length_value], by rw [gas₁, gas₂, budget],
      by rw [gasv₁, gasv₂, budget_value], by rw [buf₁, buf₂, frame]⟩
    progress := progress' }⟩

/-- A run goes on with a first step. -/
theorem core_run_succ {s t : State} {n : Nat} (h : core.run (n + 1) s = .next t) :
    ∃ u, step s = .next u ∧ core.run n u = .next t := by
  cases hs : step s with
  | next u => exact ⟨u, rfl, (core_run_step hs n).symm.trans h⟩
  | fault e => simp only [Host.Core.run, show core.step s = .fault e from hs] at h; cases h
  | refused e => simp only [Host.Core.run, show core.step s = .refused e from hs] at h; cases h

theorem SideBySide.run {n : Nat} {s₁ s₂ t₁ : State} (hs : SideBySide s₁ s₂) (hrun : core.run n s₁ = .next t₁)
    (hfirst : ∀ (k : Nat) (u : State), k < n → core.run k s₁ = .next u → u.ctl ≠ .done) :
    ∃ t₂, core.run n s₂ = .next t₂ ∧ SideBySide t₁ t₂ := by
  induction n generalizing s₁ s₂ with
  | zero =>
    cases hrun
    exact ⟨s₂, rfl, hs⟩
  | succ n ih =>
    obtain ⟨u₁, step₁, rest₁⟩ := core_run_succ hrun
    obtain ⟨u₂, step₂, next⟩ := hs.step (hfirst 0 s₁ (by omega) rfl) step₁
    obtain ⟨t₂, rest₂, done⟩ := ih next rest₁ fun k u hk hu =>
      hfirst (k + 1) u (by omega) ((core_run_step step₁ k).trans hu)
    exact ⟨t₂, (core_run_step step₂ n).trans rest₂, done⟩

/-- Settles O59: in DECODE nothing but the latches and the clear results is asked to agree, and the two runs go side by side
from there. -/
theorem resultDependsOnLatchesOnly : Obligations.ResultDependsOnLatchesOnly := by
  intro s₁ s₂ t₁ n hturns₁ hturns₂ hctl₁ hctl₂ hout₁ hout₂ hgas₁ hgas₂ hlen hlenv hbudget hbudgetv hframe hrun hdone hfirst
  have start : SideBySide s₁ s₂ := {
    schedule₁ := hturns₁
    schedule₂ := hturns₂
    started := by simp [hctl₁]
    latches := ⟨hlen, hlenv, hbudget, hbudgetv, funext hframe⟩
    progress := {
      ctl := hctl₁.trans hctl₂.symm
      output := hout₁.trans hout₂.symm
      gas := hgas₁.trans hgas₂.symm
      call := by simp [hctl₁]
      work := by simp [hctl₁]
      code := by simp [hctl₁] } }
  obtain ⟨t₂, hrun₂, done⟩ := start.run hrun hfirst
  exact ⟨t₂, hrun₂, done.progress.ctl ▸ hdone, (done.progress.result hdone).symm⟩

end Sys2Proof.Proofs
end

section
/-! SUPPORT. START and the controller's steps, state by state (42_controller.md R100 to R108). -/

namespace Sys2Proof.Proofs

open Sys2Proof.Machine Sys2Proof.Laws

/-! ## START (42_controller.md R100, R101) -/

theorem exec_start_of_waiting (ignored : BitVec 63) {s : State} (h : s.ctl.busy = false) :
    exec (.start ignored) s = .next (latchInputs s) :=
  if_neg (by simp [h])

theorem exec_start_of_busy (ignored : BitVec 63) {s : State} (h : s.ctl.busy = true) : exec (.start ignored) s = .next s :=
  if_pos h

theorem not_busy_of_waiting {c : Ctl} (h : c = .idle ∨ c = .done) : c.busy = false := by
  rcases h with rfl | rfl <;> rfl

/-- A cleared `OUT_BUF` reads 0x00 everywhere (10_state.md R18). -/
theorem read_cleared_outBuf (k : Nat) : Memory.read .outBuf [] k = some 0x00#8 := rfl

/-- Settles O20: START is accepted, and the latches read as the inputs they copy. -/
theorem startLatchesAndClears : Obligations.StartLatchesAndClears := by
  intro ignored s hctl
  refine ⟨latchInputs s, exec_start_of_waiting ignored (not_busy_of_waiting hctl), rfl, rfl, rfl, rfl, fun k _ => ?_,
    fun k _ => read_cleared_outBuf k, rfl, rfl, rfl⟩
  rw [latchInputs_lBuf]
  rfl -- unlisted bytes of `IN_BUF` and of `L_BUF` alike have no value

/-- Settles O21: the five states are the busy ones. -/
theorem startWhileBusyIsDropped : Obligations.StartWhileBusyIsDropped := by
  intro ignored s hctl
  apply exec_start_of_busy
  rcases hctl with hctl | hctl | hctl | hctl | hctl <;> rw [hctl] <;> rfl

/-- Settles O22: START is dropped, or it writes the latches and the results. -/
theorem startLeavesTheRest : Obligations.StartLeavesTheRest := by
  intro ignored s t h
  cases hbusy : s.ctl.busy with
  | true =>
    rw [exec_start_of_busy ignored hbusy] at h
    cases h
    simp
  | false =>
    rw [exec_start_of_waiting ignored hbusy] at h
    cases h
    simp

/-! ## The controller's steps (42_controller.md R102 to R108) -/

section Exec

variable (n : Word32) (h : Vector Word 8) (m : Vector Word 16) (t : Vector Word 2) (f : Byte) {s : State}

theorem exec_blake2f_of_waiting (hctl : s.ctl = .idle ∨ s.ctl = .done) : exec (.blake2f n h m t f) s = .next s := by
  rcases hctl with hctl | hctl <;> simp only [exec, execBlake2f, hctl]

theorem exec_blake2f_of_gascheck (hctl : s.ctl = .gascheck) : exec (.blake2f n h m t f) s = gasCheckStep s := by
  simp only [exec, execBlake2f, hctl]

theorem exec_blake2f_of_init (hctl : s.ctl = .init) : exec (.blake2f n h m t f) s = .next (initStep s) := by
  simp only [exec, execBlake2f, hctl]

theorem exec_blake2f_of_round (hctl : s.ctl = .round) : exec (.blake2f n h m t f) s = .next (roundStep s) := by
  simp only [exec, execBlake2f, hctl]

theorem exec_blake2f_of_final (hctl : s.ctl = .final) : exec (.blake2f n h m t f) s = .next (finalStep s) := by
  simp only [exec, execBlake2f, hctl]

end Exec

/-- Settles O24: the cost, as a number, is `ROUNDS`. -/
theorem gasGateComparesBudgetWithRounds : Obligations.GasGateComparesBudgetWithRounds := by
  intro n h m t f s hctl hgas
  rw [exec_blake2f_of_gascheck n h m t f hctl]
  by_cases hlt : s.lGas < gasCost s.rounds
  · rw [gasCheckStep_of_lt hgas hlt, if_pos (by rwa [BitVec.lt_def, gasCost_toNat] at hlt)]
    rfl
  · rw [gasCheckStep_of_not_lt hgas hlt, if_neg (not_lt.2 (not_lt_gasCost_iff.1 hlt))]

/-- Settles O25: the step is INIT's. -/
theorem initStepSeedsAndBranches : Obligations.InitStepSeedsAndBranches := fun n h m t f _ hctl =>
  exec_blake2f_of_init n h m t f hctl

/-- Settles O26: below `ROUNDS`, `RC` can count up without wrapping. -/
theorem roundStepMixesOnce : Obligations.RoundStepMixesOnce := by
  intro n h m t f s hctl hlt
  have count : (s.rc + 1).toNat = s.rc.toNat + 1 := by
    have := s.rounds.isLt
    bv_omega
  refine ⟨roundStep s, exec_blake2f_of_round n h m t f hctl, roundStep_v s, ?_, fun hrc => ?_, fun hrc => ?_, rfl⟩
  · rw [roundStep_rc, count]
  · rw [roundStep_ctl, if_pos (roundStep_rc s ▸ hrc)]
  · rw [roundStep_ctl, if_neg (roundStep_rc s ▸ hrc)]

/-- Settles O27: the bytes written are the 64 of the folded work vector. -/
theorem finalStepWritesTheResult : Obligations.FinalStepWritesTheResult := by
  intro n h m t f s hctl hwf
  obtain ⟨length, layout⟩ := outputByteLayout s.h s.v
  refine ⟨finalStep s, exec_blake2f_of_final n h m t f hctl, fun i k hk => ?_, ?_, finalStep_status s,
    finalStep_ctl s, by simp only [finalStep]⟩
  · have inside : 0 ≤ 8 * i.val + k ∧ 8 * i.val + k < 0 + 64 := by omega
    rw [finalStep_outBuf, read_writeBytes _ _ _ _ (wf_rising hwf), length, if_pos inside, Nat.sub_zero, layout i k hk]
  · rw [finalStep_gasUsed, gasCost_toNat]

theorem step_of_waiting {s : State} (turn : s.nextTurn = .controller) (hctl : s.ctl = .idle ∨ s.ctl = .done) :
    step s = .next s.pop := by
  rw [step_controller turn, fetchController, pop_ctl]
  rcases hctl with hctl | hctl <;> rw [hctl] <;> rfl

/-- Settles O28: neither BLAKE2F nor the controller's turn has a step in IDLE and DONE. -/
theorem waitingControllerDoesNothing : Obligations.WaitingControllerDoesNothing :=
  ⟨fun n h m t f _ hctl => exec_blake2f_of_waiting n h m t f hctl, fun _ hctl turn => step_of_waiting turn hctl⟩

/-! ## What every step allows (42_controller.md R108, R109, R113) -/

/-- Settles O32: a controller step keeps the latches. -/
theorem readyControllerAlwaysSteps : Obligations.ReadyControllerAlwaysSteps := by
  intro s turn hready
  obtain ⟨t, h⟩ := step_of_ready turn hready
  obtain ⟨hlen, hlenv, hbuf, -, hgasv, -⟩ := controllerStep_frame turn h
  obtain ⟨length, budget, frame⟩ := hready
  exact ⟨t, h, hlenv.trans length, hgasv.trans budget, by rwa [hlen, hbuf]⟩

/-- Settles O36: a busy controller goes to a busy state, or ends with the code of its result or its error. -/
theorem onlyResetStopsAnOperation : Obligations.OnlyResetStopsAnOperation := by
  intro s t hbusy h hreset
  cases step_cases h with
  | reset turn => exact absurd turn hreset
  | waits _ hctl | start _ hctl => exact absurd (hctl.symm.trans hbusy) (by decide)
  | decode | passed => exact .inl rfl
  | illegal | tooDear | final => exact .inr ⟨rfl, rfl⟩
  | init => rw [initStep_ctl]; split <;> exact .inl rfl
  | round => rw [roundStep_ctl]; split <;> exact .inl rfl
  | host => exact .inl hbusy
  | access _ a t hacc =>
    rw [ctl_of_sameOperation (sameOperation_of_accessCase hacc)]
    exact .inl hbusy

theorem result_of_sameOperation {s t : State} (h : SameOperation s t) : t.result = s.result := by
  rw [h]
  rfl

/-- Settles O39: of the steps possible in DONE, only a START and a reset write a result register, and both leave DONE. -/
theorem resultsStayInDone : Obligations.ResultsStayInDone := by
  intro s t hdone h hdone'
  cases step_cases h with
  | waits | host => rfl
  | access _ a t hacc =>
    have same := result_of_sameOperation (sameOperation_of_accessCase hacc)
    exact same
  | reset | start => cases hdone'
  | decode _ _ _ _ _ _ hctl | illegal _ _ hctl | tooDear _ hctl | passed _ hctl | init _ hctl | round _ hctl | final _ hctl =>
    exact absurd (hctl.symm.trans hdone) (by decide)

end Sys2Proof.Proofs
end

section
/-! SUPPORT. The host's accesses, access by access: what a read answers and what a write stores (42_controller.md R115, R116). -/

namespace Sys2Proof.Proofs

open Sys2Proof.Machine Sys2Proof.Laws

/-! ## Reads (42_controller.md R115) -/

theorem regRead_of_five_le (s : State) {n : Nat} (hn : 5 ≤ n) : s.regRead n = .ok 0 := by
  obtain ⟨k, rfl⟩ := Nat.exists_eq_add_of_le' hn
  rfl

section Reads

variable {s : State} (turn : s.nextTurn = .host)

include turn

/-- A host step at an access that is no command is that access, with the turn used up and the host moved on. -/
theorem step_hostAccess {a : Access} (hop : s.host.ops[s.host.pc]? = some (.access a)) (h : ∀ w, a ≠ .regWrite 2 w) :
    step s = hostAccess (s.pop.hostGoto (s.host.pc + 1)) a := by
  rw [step_access turn hop, busAccess_of_no_command _ h]

theorem step_regRead {n : Nat} (hop : s.host.ops[s.host.pc]? = some (.access (.regRead n))) :
    (∀ w, s.regRead n = .ok w → step s = .next ((s.pop.hostGoto (s.host.pc + 1)).recordRead w)) ∧
      ∀ e, s.regRead n = .error e → step s = .fault e := by
  rw [step_hostAccess turn hop (by simp)]
  exact ⟨fun w hw => hostAccess_regRead_eq_next.2 ⟨w, hw, rfl⟩, fun _ he => hostAccess_regRead_of_error he⟩

theorem step_inRead {k : Nat} {x : Byte} (hop : s.host.ops[s.host.pc]? = some (.access (.inRead k))) (hk : k < 213)
    (hx : s.inBuf.read .inBuf k = some x) :
    step s = .next ((s.pop.hostGoto (s.host.pc + 1)).recordRead (x.setWidth 64)) := by
  rw [step_hostAccess turn hop (by simp)]
  exact hostAccess_inRead_eq_next.2 ⟨hk, x, hx, rfl⟩

theorem step_outRead {k : Nat} (hop : s.host.ops[s.host.pc]? = some (.access (.outRead k))) (hk : k < 64) :
    step s = .next ((s.pop.hostGoto (s.host.pc + 1)).recordRead ((s.outByte k).setWidth 64)) := by
  rw [step_hostAccess turn hop (by simp)]
  exact hostAccess_outRead_eq_next.2 ⟨hk, rfl⟩

end Reads

/-- Settles O43: the register map number by number, and the step that reads it. -/
theorem registerReadTable : Obligations.RegisterReadTable := by
  intro s
  refine ⟨fun hv => if_pos hv, fun hv => if_neg (by simp [hv]), fun hv => if_pos hv, fun hv => if_neg (by simp [hv]), rfl, ?_,
    rfl, fun n hn => regRead_of_five_le s hn, fun n turn hop => step_regRead turn hop⟩
  rw [State.regRead, State.statusWord]
  cases s.status <;> rfl

/-- Settles O45: the access records the byte, or faults for the lack of one. -/
theorem byteReadsAnswerTheByte : Obligations.ByteReadsAnswerTheByte := by
  intro s k turn
  refine ⟨fun b hop hk hb => ⟨_, step_inRead turn hop hk hb, rfl⟩, fun hop hk hnone => ?_, fun b hop hk hb => ?_⟩
  · rw [step_hostAccess turn hop (by simp)]
    exact hostAccess_inRead_of_none hk hnone
  · obtain rfl : s.outByte k = b := Option.some.inj ((read_outBuf s k).symm.trans hb)
    exact ⟨_, step_outRead turn hop hk, rfl⟩

/-! ## Writes (42_controller.md R116) -/

/-- Settles O46: the access stores into register 0 or 1, or is ignored. -/
theorem registerWritesStoreOrAreIgnored : Obligations.RegisterWritesStoreOrAreIgnored := by
  intro s n w turn hop hn
  have write := (step_access turn hop).trans (busAccess_regWrite _ w hn)
  refine ⟨_, write, ?_⟩
  rcases regWrite_cases (s.pop.hostGoto (s.host.pc + 1)) w n with ⟨rfl, e⟩ | ⟨rfl, e⟩ | ⟨hle, e⟩
  · rw [e]
    exact ⟨rfl, rfl, fun _ => rfl, by simp, by simp⟩
  · rw [e]
    exact ⟨rfl, rfl, by simp, fun _ => rfl, by simp⟩
  · rw [e]
    exact ⟨rfl, rfl, by omega, by omega, fun _ => rfl⟩

/-- Settles O47: a read after the write answers the byte at its offset and the old ones elsewhere. -/
theorem byteWritesStoreOrAreIgnored : Obligations.ByteWritesStoreOrAreIgnored := by
  intro s k b turn hwf
  refine ⟨fun hop hk => ?_, fun hop hk => ?_⟩
  · have stored : ∀ j, (s.inBuf.write .inBuf k b).read .inBuf j = if j = k then some b else s.inBuf.read .inBuf j :=
      read_write .inBuf k b s.inBuf (wf_rising hwf)
    refine ⟨_, (step_hostAccess turn hop (by simp)).trans (hostAccess_inWrite b hk), ?_, fun j hj => ?_, rfl⟩
    · exact (stored k).trans (if_pos rfl)
    · exact (stored j).trans (if_neg hj)
  · exact ⟨_, (step_hostAccess turn hop (by simp)).trans (hostAccess_outWrite _ b hk), rfl⟩

end Sys2Proof.Proofs
end

section
/-! SUPPORT. Whole operations: `run` on a decoded frame by its budget, and the machine from START to DONE with the steps it
takes (42_controller.md R110, R111, R114). -/

namespace Sys2Proof.Proofs

open Sys2Proof.Machine Sys2Proof.Laws

/-! ## `run` on a decoded frame (42_controller.md R102, R110) -/

section Decoded

variable {byte? : Nat → Option Byte} {len gas : Word} {n : Word32} {h : Vector Word 8} {m : Vector Word 16} {t : Vector Word 2}
  {f : Byte} (hdec : decodeFrame len byte? = .ok (.blake2f n h m t f))

include hdec

theorem run_of_lt_gasCost (hlt : gas < gasCost n) : Machine.run len byte? gas = some ⟨.outOfGas, 0, zeroOutput⟩ := by
  rw [run_of_decoded gas hdec, runCall, if_pos hlt]

theorem run_of_not_lt_gasCost (hge : ¬ gas < gasCost n) : Machine.run len byte? gas =
    some ⟨.success, gasCost n, serialise (compress h m t (f.getLsbD 0) n)⟩ := by
  rw [run_of_decoded gas hdec, runCall, if_neg hge]

end Decoded

theorem gasCost_eq_ofNat (n : Word32) : gasCost n = BitVec.ofNat 64 n.toNat := by
  rw [← gasCost_toNat, BitVec.ofNat_toNat, BitVec.setWidth_eq]

/-- Settles O54: the budget decides the code only; the output is the compression's. -/
theorem gasMonotonicity : Obligations.GasMonotonicity := by
  intro byte? n h m t f hdec
  refine ⟨serialise (compress h m t (f.getLsbD 0) n), length_serialise _, fun gas => ⟨fun hge => ?_, fun hlt => ?_⟩⟩
  · rw [run_of_not_lt_gasCost hdec (not_lt_gasCost_iff.2 hge), gasCost_eq_ofNat]
  · exact run_of_lt_gasCost hdec (by rwa [BitVec.lt_def, gasCost_toNat])

/-! ## From START to DONE (42_controller.md R109 to R111) -/

/-- From DECODE, the answer of `run` tells the controller steps to DONE (42_controller.md R111). -/
theorem stepsLeft_of_run {s : State} {r : Result} (hctl : s.ctl = .decode)
    (hrun : Machine.run s.lLen (s.lBuf.read .lBuf) s.lGas = some r) :
    (r.code = .outOfRange ∧ stepsLeft s = 1) ∨ (r.code = .outOfGas ∧ stepsLeft s = 2) ∨
      (r.code = .success ∧ stepsLeft s = r.gasUsed.toNat + 4) := by
  cases hdec : s.decodeLatched with
  | ok i =>
    obtain ⟨_, n, h, m, t, f, rfl, -⟩ := decodeFrame_blake2f hdec
    rw [stepsLeft_decode hctl hdec, callSteps]
    by_cases hlt : s.lGas < gasCost n
    · cases (run_of_lt_gasCost hdec hlt).symm.trans hrun
      exact .inr (.inl ⟨rfl, by rw [if_pos hlt]⟩)
    · cases (run_of_not_lt_gasCost hdec hlt).symm.trans hrun
      exact .inr (.inr ⟨rfl, by rw [if_neg hlt, gasCost_toNat]⟩)
  | error e =>
    have hdec' : decodeFrame s.lLen (s.lBuf.read .lBuf) = .error e := hdec
    have he : ∀ k, e ≠ .noByte k := by
      rintro k rfl
      simp [Machine.run, hdec'] at hrun
    cases (run_of_rejected _ hdec' he).symm.trans hrun
    exact .inl ⟨rfl, stepsLeft_decode_rejected hctl hdec⟩

/-- With a success, `GAS_USED` shows the cost of the call that the decoded-call registers hold (42_controller.md R107). -/
def GasShown (s : State) : Prop := s.status = .success → s.gasUsed = gasCost s.rounds

theorem gasShown_of_sameOperation {s t : State} (hs : GasShown s) (h : SameOperation s t) : GasShown t := by
  rw [h]
  exact hs

theorem gasShown_of_step {s t : State} (hs : Inv s) (hgas : GasShown s) (h : step s = .next t) : GasShown t := by
  cases step_cases h with
  | decode _ _ _ _ _ _ hctl =>
    intro hcode
    have hbusy : s.status = .busy := hs.status_busy.2 (by rw [hctl]; rfl)
    exact absurd (hbusy.symm.trans hcode) (by decide)
  | final => exact fun _ => by rw [finalStep_gasUsed, finalStep_rounds, pop_rounds]
  | reset | illegal | tooDear | start => exact fun hcode => absurd hcode (by simp [State.reset, OpError.code])
  | access _ a t hacc =>
    have moved : GasShown (s.pop.hostGoto (s.host.pc + 1)) := hgas
    exact gasShown_of_sameOperation moved (sameOperation_of_accessCase hacc)
  | waits | passed | init | round | host => simpa [GasShown] using hgas

/-- What every step keeps, a run keeps. -/
theorem core_run_keeps {P : State → Prop} (keeps : ∀ s t, P s → step s = .next t → P t) {n : Nat} {s t : State} (hs : P s)
    (hrun : core.run n s = .next t) : P t := by
  induction n generalizing s with
  | zero =>
    cases hrun
    exact hs
  | succ n ih =>
    obtain ⟨u, first, rest⟩ := core_run_succ hrun
    exact ih (keeps s u hs first) rest

theorem gasShown_of_run {n : Nat} {s t : State} (hs : Inv s) (hgas : GasShown s) (hrun : core.run n s = .next t) : GasShown t :=
  (core_run_keeps (P := fun s => Inv s ∧ GasShown s)
    (fun s t ⟨hs, hgas⟩ h => ⟨everyStepKeepsTheInvariant s t hs h, gasShown_of_step hs hgas h⟩) ⟨hs, hgas⟩ hrun).2

/-- A host that stands at a statement while the block waits. -/
theorem waiting_of_statement {s : State} {op : HostOp} (hturns : s.turns = []) (hidle : s.ctl.busy = false)
    (hop : s.host.ops[s.host.pc]? = some op) : Waiting (op :: s.host.ops.drop (s.host.pc + 1)) s where
  schedule := hturns
  idle := hidle
  rest_eq := by
    obtain ⟨hlt, rfl⟩ := List.getElem?_eq_some_iff.1 hop
    exact List.drop_eq_getElem_cons hlt

/-- Settles O58: START is accepted, the controller runs to DONE, and the result of `run` tells the steps it took. -/
theorem startReachesTheResultOfRun : Obligations.StartReachesTheResultOfRun := by
  intro s w hturns hctl hwf hboot hop hbit
  obtain ⟨length, budget, frame⟩ := hboot
  have waiting := waiting_of_statement hturns (not_busy_of_waiting hctl) hop
  have underway := underway_latchInputs waiting.moved.schedule hwf ⟨length, budget, frame⟩
  obtain ⟨t, hrun, done, hdone⟩ := underway.runs_to_done
  have hresult := done.result hdone
  refine ⟨stepsLeft (latchInputs (s.hostGoto (s.host.pc + 1))), t, ?_, hdone, hresult, ?_⟩
  · rw [Nat.add_comm]
    exact (core_run_step (waiting.start hbit) _).trans hrun
  · have shown : GasShown t := gasShown_of_run underway.inv (fun hcode => absurd hcode (by simp)) hrun
    have steps := stepsLeft_of_run (s := latchInputs (s.hostGoto (s.host.pc + 1))) rfl hresult
    rcases steps with ⟨hcode, hsteps⟩ | ⟨hcode, hsteps⟩ | ⟨hcode, hsteps⟩
    · exact .inl ⟨hcode, hsteps⟩
    · exact .inr (.inl ⟨hcode, hsteps⟩)
    · have hgas : (State.result t).gasUsed = gasCost (State.rounds t) := shown hcode
      exact .inr (.inr ⟨hcode, by rw [hsteps, hgas, gasCost_toNat]⟩)

end Sys2Proof.Proofs
end

section
/-! SUPPORT. The operation an illegal frame ends, and instances side by side (60_exceptions.md R121, R131). -/

namespace Sys2Proof.Proofs

open Sys2Proof.Machine Sys2Proof.Laws

/-! ## An illegal latched frame (60_exceptions.md R121) -/

/-- The length is tested before the flag byte, so a wrong length decides whatever byte 212 is. -/
theorem decodeLatched_of_illegal {s : State}
    (h : s.lLen ≠ 213#64 ∨ ∃ b, s.lBuf.read .lBuf 212 = some b ∧ b ≠ 0x00#8 ∧ b ≠ 0x01#8) :
    s.decodeLatched = .error .lengthNot213 ∨ s.decodeLatched = .error .flagNotBool := by
  by_cases hlen : s.lLen = 213#64
  · obtain ⟨b, hbyte, h0, h1⟩ := h.resolve_left (not_not.2 hlen)
    right
    rw [State.decodeLatched, hlen]
    exact flagByteAloneDecides _ b hbyte h0 h1
  · exact .inl (decodeFrame_of_other_length hlen)

/-- Settles O30: either cause is a rejection that lacks no byte, and DECODE answers every such rejection by raising
OUT_OF_RANGE. -/
theorem illegalFrameRaisesOutOfRange : Obligations.IllegalFrameRaisesOutOfRange := by
  intro s turn hctl hlen illegal
  rcases decodeLatched_of_illegal illegal with hdec | hdec
  · exact step_of_rejected turn hctl hlen hdec (by simp)
  · exact step_of_rejected turn hctl hlen hdec (by simp)

/-! ## Instances side by side (60_exceptions.md R131, 20_memory.md R43) -/

section StepInstance

variable {k : Nat} {l : List State} {s : State}

theorem stepInstance_of_next {t : State} (hs : l[k]? = some s) (h : step s = .next t) :
    stepInstance k l = .next (l.set k t) := by
  simp only [stepInstance, hs, h]

theorem stepInstance_of_fault {e : Fault} (hs : l[k]? = some s) (h : step s = .fault e) : stepInstance k l = .fault e := by
  simp only [stepInstance, hs, h]

theorem stepInstance_of_refused {e : Refusal} (hs : l[k]? = some s) (h : step s = .refused e) :
    stepInstance k l = .refused e := by
  simp only [stepInstance, hs, h]

end StepInstance

/-- Settles O53: a step that goes on replaces entry `k` of the list by the state it answers. -/
theorem instancesAreIndependent : Obligations.InstancesAreIndependent := by
  intro k l
  refine ⟨fun s t hs h => ⟨l.set k t, stepInstance_of_next hs h, List.length_set, ?_, ?_⟩,
    fun _ _ => stepInstance_of_fault, fun _ _ => stepInstance_of_refused⟩
  · obtain ⟨hk, -⟩ := List.getElem?_eq_some_iff.1 hs
    exact List.getElem?_set_self hk
  · intro j hj
    exact List.getElem?_set_ne hj.symm

end Sys2Proof.Proofs
end

section
/-! SUPPORT. What a reset leaves, and the faults of a controller step that reads a register or byte without a value
(70_reset_and_hazards.md R140 to R142). -/

namespace Sys2Proof.Proofs

open Sys2Proof.Machine Sys2Proof.Laws

/-! ## Frames that lack a byte (70_reset_and_hazards.md R141) -/

theorem decodeFrame_of_missing_flag {byte? : Nat → Option Byte} (hflag : byte? 212 = none) :
    decodeFrame 213#64 byte? = .error (.noByte 212) := by
  simp only [decodeFrame, hflag, ne_eq, not_true_eq_false, if_false]

theorem decodeFrame_of_missing_byte {byte? : Nat → Option Byte} {f : Byte} {k : Nat} (hflag : byte? 212 = some f)
    (legal : legalFlag f = true) (missing : firstMissing byte? 212 = some k) :
    decodeFrame 213#64 byte? = .error (.noByte k) := by
  simp only [decodeFrame, hflag, legal, missing, ne_eq, not_true_eq_false, if_false, if_true]

/-! ## The controller steps that fault (70_reset_and_hazards.md R141, R142) -/

section Faults

variable {s : State} (turn : s.nextTurn = .controller)

include turn

theorem step_of_missing_length (hctl : s.ctl = .decode) (hlen : s.lLenHasValue = false) :
    step s = .fault (.noValue .lLen) := by
  rw [step_controller turn]
  simp only [fetchController, pop_ctl, hctl, pop_lLenHasValue, hlen, Bool.false_eq_true, if_false, perform]

theorem step_of_missing_byte {k : Nat} (hctl : s.ctl = .decode) (hlen : s.lLenHasValue = true)
    (hdec : s.decodeLatched = .error (.noByte k)) : step s = .fault (.noValue (.lByte k)) := by
  have hdec : s.pop.decodeLatched = .error (.noByte k) := hdec
  rw [step_controller turn]
  simp only [fetchController, pop_ctl, hctl, pop_lLenHasValue, hlen, if_true, hdec, perform]

theorem step_of_missing_budget (hctl : s.ctl = .gascheck) (hgas : s.lGasHasValue = false) :
    step s = .fault (.noValue .lGas) := by
  rw [step_gascheck turn hctl]
  simp only [gasCheckStep, pop_lGasHasValue, hgas, Bool.false_eq_true, if_false]

end Faults

/-- Settles O31: the decoder asks for the flag byte first and then names the lowest missing byte (log 14). -/
theorem stepFaultsOnMissingValues : Obligations.StepFaultsOnMissingValues := by
  intro s turn
  refine ⟨step_of_missing_length turn, fun hctl hlenv hlen hflag => ?_,
    fun f k hctl hlenv hlen hflag legal hk hbyte lowest => ?_, step_of_missing_budget turn⟩
  · apply step_of_missing_byte turn hctl hlenv
    rw [State.decodeLatched, hlen, decodeFrame_of_missing_flag hflag]
  · have missing : firstMissing (s.lBuf.read .lBuf) 212 = some k := (firstMissing_eq_some _ _ _).2 ⟨hk, hbyte, lowest⟩
    apply step_of_missing_byte turn hctl hlenv
    rw [State.decodeLatched, hlen, decodeFrame_of_missing_byte hflag ((legalFlag_iff f).2 legal) missing]

/-! ## Reset (70_reset_and_hazards.md R140) -/

/-- An empty byte space reads everywhere as an unlisted byte does (log 5). -/
theorem read_empty (sp : Space) (k : Nat) : Memory.read sp [] k = sp.unwritten := rfl

/-- Settles O41: the step is the reset event, which empties the three byte spaces. -/
theorem resetFromAnyState : Obligations.ResetFromAnyState := fun s turn =>
  ⟨resetBlock s.pop, step_reset turn, rfl, rfl, rfl, fun k _ => read_empty .outBuf k, rfl, rfl, rfl, rfl,
    read_empty .inBuf, read_empty .lBuf, rfl, rfl⟩

/-- Settles O42: an empty `OUT_BUF` shows 64 zero bytes, and an empty `IN_BUF` or `L_BUF` none at all. -/
theorem resetStateValues : Obligations.ResetStateValues :=
  ⟨rfl, rfl, rfl, rfl, outBytes_of_clear (s := State.reset) rfl, rfl, rfl, rfl, rfl,
    fun k => ⟨read_empty .inBuf k, read_empty .lBuf k⟩⟩

/-- Settles O55: the state after reset is what a reset event makes of it. -/
theorem invariantHoldsAtReset : Obligations.InvariantHoldsAtReset :=
  inv_resetBlock State.reset

end Sys2Proof.Proofs
end
